-- ==== Sys2Proof/Config.lean ====
section
/-! DEFINITION. The numeric parameters of the implementation (spec/00_scope.md R5). The parameters that choose a
value (OPMAP, IMM16_EXTEND, the remainder conversion, dec) are each one named definition where they are used:
`opmap` in Decode.lean, `Machine.imm16Extend` in Machine/Operands.lean, `Machine.remainderPattern` in
Machine/Alu.lean, `Machine.dec` in Machine/Output.lean. -/

namespace Sys2Proof

/-- `NREGS`: the number of general registers (R5, R11). -/
abbrev Config.nregs : Nat := 32

/-- `XLEN`: the width in bits of a register and of the datapath (R5, R11). -/
abbrev Config.xlen : Nat := 32

/-- `PCW`: the width in bits of the program counter (R5; spec/10_state.md R15). -/
abbrev Config.pcw : Nat := 32

/-- `PROG_MAX`: the largest program length in bytes, `2^31 - 1` (R5). -/
abbrev Config.progMax : Nat := 2147483647

/-- The length of the longest instruction in bytes (R46). -/
abbrev Config.maxInstrBytes : Nat := 4

/-- The number of a general register (R11). -/
abbrev RegIndex := Fin Config.nregs

end Sys2Proof
end

