-- ==== Sys2Proof/Word.lean ====
section
/-! DEFINITION. The words of the machine: bytes, registers, program offsets, 16-bit immediates (spec/00_scope.md R5, R6). -/

namespace Sys2Proof

/-- One byte of the program buffer (R6, R30). -/
abbrev Byte := BitVec 8

/-- One pattern of XLEN bits: a general register (read with `BitVec.toInt`, the spec's `s32`), `rem` and `info` (read
with `BitVec.toNat`, the spec's `u32`); R5, R6. -/
abbrev Word := BitVec Config.xlen

/-- One unsigned number of PCW bits, an offset into the program buffer: `pc`, read with `BitVec.toNat` (R5, R6;
spec/10_state.md R15). -/
abbrev Offset := BitVec Config.pcw

/-- The 16-bit immediate pattern of STORE (R50). -/
abbrev Imm16 := BitVec 16

/-- `INT_MIN = -2^31` (R6). -/
def intMin : Int := -2147483648

/-- `INT_MAX = 2^31 - 1` (R6). -/
def intMax : Int := 2147483647

end Sys2Proof
end

