-- ==== Sys2Proof/Syntax.lean ====
section
/-! DEFINITION. The instructions: one constructor per row of spec/opcode_table.json. A register field is held as the
byte the stream gives (spec/30_encoding.md R49: all eight bits are significant; a byte of 32 or more makes the
instruction raise RegisterIndex, R69); `pad` is the third operand byte of the comparisons, any value (R51). -/

namespace Sys2Proof

/-- One instruction with its operand bytes (R47, R52). Field names are the source's. -/
inductive Instr where
  | hlt
  | store (reg : Byte) (imm16 : Imm16)
  | add (r1 r2 dest : Byte)
  | sub (r1 r2 dest : Byte)
  | mul (r1 r2 dest : Byte)
  | div (r1 r2 dest : Byte)
  | jmp (reg : Byte)
  | jmpf (reg : Byte)
  | jmpb (reg : Byte)
  | eq (r1 r2 pad : Byte)
  | neq (r1 r2 pad : Byte)
  | gt (r1 r2 pad : Byte)
  | lt (r1 r2 pad : Byte)
  | gte (r1 r2 pad : Byte)
  | lte (r1 r2 pad : Byte)
  | jmpe (reg : Byte)
  | print (reg : Byte)
  | println (reg : Byte)
deriving DecidableEq, Repr

end Sys2Proof
end

