-- ==== Sys2Proof/WellFormed.lean ====
section
/-! DEFINITION. When an instruction is well formed: every register field names one of the 32 registers
(spec/30_encoding.md R49). The pad byte and the immediate are not checked (spec/40_execution_cycle.md R69). -/

namespace Sys2Proof

/-- The register fields of an instruction, in field order (R47, R69). -/
def Instr.regFields : Instr → List Byte
  | .hlt => []
  | .store reg _ => [reg]
  | .add r1 r2 dest => [r1, r2, dest]
  | .sub r1 r2 dest => [r1, r2, dest]
  | .mul r1 r2 dest => [r1, r2, dest]
  | .div r1 r2 dest => [r1, r2, dest]
  | .jmp reg => [reg]
  | .jmpf reg => [reg]
  | .jmpb reg => [reg]
  | .eq r1 r2 _ => [r1, r2]
  | .neq r1 r2 _ => [r1, r2]
  | .gt r1 r2 _ => [r1, r2]
  | .lt r1 r2 _ => [r1, r2]
  | .gte r1 r2 _ => [r1, r2]
  | .lte r1 r2 _ => [r1, r2]
  | .jmpe reg => [reg]
  | .print reg => [reg]
  | .println reg => [reg]

/-- A register field names a register: its byte is 0 to 31 (R49). -/
def regFieldOk (b : Byte) : Bool := b.toNat < Config.nregs

/-- An instruction all of whose register fields name registers (R49, R181 (a)). -/
def WellFormed (i : Instr) : Bool := i.regFields.all regFieldOk

end Sys2Proof
end

