-- ==== Sys2Proof/Decode.lean ====
section
/-! DEFINITION. The decoder and, after it, the encoder (spec/30_encoding.md), and the reading of a row's word of
spec/opcode_table.json. -/

namespace Sys2Proof

/-- The 18 mapped opcodes (spec/00_scope.md R1); `Unknown` is the decoder's answer for every other byte (R53). -/
inductive Opcode where
  | hlt | store | add | sub | mul | div | jmp | jmpf | jmpb
  | eq | neq | gt | lt | gte | lte | jmpe | print | println
deriving DecidableEq, Repr

/-- `OPMAP`: the byte value of each opcode, the one table of them (R52; the spec's decision D1; UNVERIFIED against
the repository, unsafe, log entry 11). -/
def opmap : Opcode → Byte
  | .hlt => 0x00
  | .store => 0x01
  | .add => 0x02
  | .sub => 0x03
  | .mul => 0x04
  | .div => 0x05
  | .jmp => 0x06
  | .jmpf => 0x07
  | .jmpb => 0x08
  | .eq => 0x09
  | .neq => 0x0A
  | .gt => 0x0B
  | .lt => 0x0C
  | .gte => 0x0D
  | .lte => 0x0E
  | .jmpe => 0x0F
  | .print => 0x10
  | .println => 0x11

/-- Every mapped opcode, in the order of the spec's table (R52). -/
def allOpcodes : List Opcode :=
  [.hlt, .store, .add, .sub, .mul, .div, .jmp, .jmpf, .jmpb,
   .eq, .neq, .gt, .lt, .gte, .lte, .jmpe, .print, .println]

/-- The total map from an opcode byte to an opcode; `none` is the sentinel Unknown (R53). -/
def opcodeOf (b : Byte) : Option Opcode := allOpcodes.find? (fun op => opmap op == b)

/-- The five formats (R47). -/
inductive Format where
  | z | r | ri | rrr | rrp
deriving DecidableEq, Repr

/-- Which format an opcode has (R47). -/
def Opcode.format : Opcode → Format
  | .hlt => .z
  | .store => .ri
  | .add | .sub | .mul | .div => .rrr
  | .eq | .neq | .gt | .lt | .gte | .lte => .rrp
  | .jmp | .jmpf | .jmpb | .jmpe | .print | .println => .r

/-- The length in bytes of a format, opcode byte included (R46). -/
def Format.length : Format → Nat
  | .z => 1
  | .r => 2
  | .ri => 4
  | .rrr => 4
  | .rrp => 4

/-- Why a byte sequence does not decode. -/
inductive DecodeError where
  /-- There is no opcode byte: the end of the program (R36 (a)). -/
  | noBytes
  /-- The opcode byte is not mapped: the sentinel Unknown, with that byte (R53). -/
  | unknownOpcode (b0 : Byte)
  /-- An operand byte of the opcode's format is missing (R36 (b)). -/
  | truncated
deriving DecidableEq, Repr

/-- A 16-bit field from its two stream bytes, the first being the high byte (R33, R50). -/
def imm16OfBytes (hi lo : Byte) : Imm16 := hi ++ lo

/-- The first stream byte of a 16-bit field (R33). -/
def imm16High (v : Imm16) : Byte := v.extractLsb' 8 8

/-- The second stream byte of a 16-bit field (R33). -/
def imm16Low (v : Imm16) : Byte := v.extractLsb' 0 8

/-- The operands of format R: one byte (R47). -/
def takeOne (build : Byte → Instr) : List Byte → Except DecodeError (Instr × List Byte)
  | b1 :: rest => .ok (build b1, rest)
  | [] => .error .truncated

/-- The operands of formats RI, RRR and RRP: three bytes (R47). -/
def takeThree (build : Byte → Byte → Byte → Instr) : List Byte → Except DecodeError (Instr × List Byte)
  | b1 :: b2 :: b3 :: rest => .ok (build b1 b2 b3, rest)
  | _ => .error .truncated

/-- The operand fetch: every operand byte of the format, in order, before any check (R68, R146). -/
def decodeOperands (op : Opcode) (bytes : List Byte) : Except DecodeError (Instr × List Byte) :=
  match op with
  | .hlt => .ok (.hlt, bytes)
  | .store => takeThree (fun b1 b2 b3 => .store b1 (imm16OfBytes b2 b3)) bytes
  | .add => takeThree .add bytes
  | .sub => takeThree .sub bytes
  | .mul => takeThree .mul bytes
  | .div => takeThree .div bytes
  | .jmp => takeOne .jmp bytes
  | .jmpf => takeOne .jmpf bytes
  | .jmpb => takeOne .jmpb bytes
  | .eq => takeThree .eq bytes
  | .neq => takeThree .neq bytes
  | .gt => takeThree .gt bytes
  | .lt => takeThree .lt bytes
  | .gte => takeThree .gte bytes
  | .lte => takeThree .lte bytes
  | .jmpe => takeOne .jmpe bytes
  | .print => takeOne .print bytes
  | .println => takeOne .println bytes

/-- Decode the instruction at the head of a byte sequence and return it with the bytes after it (R45, R55).
Total on any bytes (R53); a register field of 32 or more is not refused here: the instruction raises RegisterIndex
itself (R69). -/
def decode : List Byte → Except DecodeError (Instr × List Byte)
  | [] => .error .noBytes
  | b0 :: rest =>
    match opcodeOf b0 with
    | none => .error (.unknownOpcode b0)
    | some op => decodeOperands op rest

/-- The opcode of an instruction. -/
def Instr.opcode : Instr → Opcode
  | .hlt => .hlt
  | .store _ _ => .store
  | .add _ _ _ => .add
  | .sub _ _ _ => .sub
  | .mul _ _ _ => .mul
  | .div _ _ _ => .div
  | .jmp _ => .jmp
  | .jmpf _ => .jmpf
  | .jmpb _ => .jmpb
  | .eq _ _ _ => .eq
  | .neq _ _ _ => .neq
  | .gt _ _ _ => .gt
  | .lt _ _ _ => .lt
  | .gte _ _ _ => .gte
  | .lte _ _ _ => .lte
  | .jmpe _ => .jmpe
  | .print _ => .print
  | .println _ => .println

/-- The operand bytes of an instruction, in stream order (R47, R48). -/
def Instr.operandBytes : Instr → List Byte
  | .hlt => []
  | .store reg imm16 => [reg, imm16High imm16, imm16Low imm16]
  | .add r1 r2 dest => [r1, r2, dest]
  | .sub r1 r2 dest => [r1, r2, dest]
  | .mul r1 r2 dest => [r1, r2, dest]
  | .div r1 r2 dest => [r1, r2, dest]
  | .jmp reg => [reg]
  | .jmpf reg => [reg]
  | .jmpb reg => [reg]
  | .eq r1 r2 pad => [r1, r2, pad]
  | .neq r1 r2 pad => [r1, r2, pad]
  | .gt r1 r2 pad => [r1, r2, pad]
  | .lt r1 r2 pad => [r1, r2, pad]
  | .gte r1 r2 pad => [r1, r2, pad]
  | .lte r1 r2 pad => [r1, r2, pad]
  | .jmpe reg => [reg]
  | .print reg => [reg]
  | .println reg => [reg]

/-- The bytes of an instruction: its opcode byte, then its operand bytes (R47, R62). -/
def encode (i : Instr) : List Byte := opmap i.opcode :: i.operandBytes

/-- The length of an instruction in bytes, told from its opcode alone (R46, R55). -/
def Instr.length (i : Instr) : Nat := i.opcode.format.length

/-- The instruction as the assembler writes it: the pad byte is 0x00 (R62). -/
def Instr.canonical : Instr → Instr
  | .eq r1 r2 _ => .eq r1 r2 0
  | .neq r1 r2 _ => .neq r1 r2 0
  | .gt r1 r2 _ => .gt r1 r2 0
  | .lt r1 r2 _ => .lt r1 r2 0
  | .gte r1 r2 _ => .gte r1 r2 0
  | .lte r1 r2 _ => .lte r1 r2 0
  | .hlt => .hlt
  | .store reg imm16 => .store reg imm16
  | .add r1 r2 dest => .add r1 r2 dest
  | .sub r1 r2 dest => .sub r1 r2 dest
  | .mul r1 r2 dest => .mul r1 r2 dest
  | .div r1 r2 dest => .div r1 r2 dest
  | .jmp reg => .jmp reg
  | .jmpf reg => .jmpf reg
  | .jmpb reg => .jmpb reg
  | .jmpe reg => .jmpe reg
  | .print reg => .print reg
  | .println reg => .println reg

/-- The 16-bit pattern the assembler emits for a decimal immediate: `n mod 65536` (R62). -/
def imm16OfDecimal (n : Int) : Imm16 := BitVec.ofInt 16 n

/-- The register field byte that names a register (R49). -/
def regByte (r : RegIndex) : Byte := BitVec.ofNat 8 r.val

/-- The `count` bytes of a number taken big-endian, most significant byte first (R57). -/
def bigEndianBytes : (count w : Nat) → List Byte
  | 0, _ => []
  | count + 1, w => bigEndianBytes count (w / 256) ++ [BitVec.ofNat 8 w]

/-- The bytes of a word of spec/opcode_table.json in stream order. The table takes the instruction as ONE big-endian
number of `nbits / 8` bytes, `B0` most significant (R57; the table's own `fixed` bits put the opcode byte at the top);
the bytes after it, up to the longest instruction, are 0 (log entry 8). -/
def tableBytes (nbits w : Nat) : List Byte :=
  bigEndianBytes ((nbits + 7) / 8) w ++ List.replicate (Config.maxInstrBytes - (nbits + 7) / 8) 0

/-- The instruction the decoder reads from a word numbered as spec/opcode_table.json numbers it. -/
def decodeTableWord (nbits w : Nat) : Option Instr :=
  match decode (tableBytes nbits w) with
  | .ok (i, _) => some i
  | .error _ => none

end Sys2Proof
end

