-- ==== Sys2Proof/Machine/State.lean ====
section
/-! DEFINITION. The state of the engine as plain data (spec/10_state.md R10), the reasons a step can stop, and the
state after reset (R24). -/

namespace Sys2Proof.Machine

/-- The engine is running or has stopped (R19). -/
inductive Status where
  | running | halted
deriving DecidableEq, Repr

/-- Why the engine stopped (spec/60_exceptions.md R141; the codes are `Cause.code`). -/
inductive Cause where
  | none
  | endOfProgram
  | hltExecuted
  | unknownOpcode
  | truncatedFetch
  | registerIndex
  | divideByZero
  | divideOverflow
  | jumpRange
deriving DecidableEq, Repr

/-- One record of the diagnostic channel (spec/40_execution_cycle.md R72). Its text is unspecified and not held
(log entry 16). -/
structure DiagRecord where
  cause : Cause
  value : Byte
deriving DecidableEq, Repr

/-- The program buffer (spec/20_memory.md R30): its length `L` and its bytes, held sparsely. `cells` lists, with
rising addresses below `length`, the bytes that are not 0x00; every other address below `length` reads 0x00, and an
address at or past `length` reads as no byte (R36; log entry 3). -/
structure Memory where
  cells : List Host.Cell
  length : Nat
deriving DecidableEq, Repr

/-- The state of the engine (R10), and the two sinks as far as they have been observed (R22, R130; log entry 1). -/
structure State where
  /-- The general registers `x[0]` to `x[31]` (R11). -/
  x : Vector Word Config.nregs
  /-- The program counter (R15). -/
  pc : Offset
  /-- The remainder register (R17). -/
  rem : Word
  /-- The equal flag (R18). -/
  eq : Bool
  /-- Running or Halted (R19). -/
  status : Status
  /-- Why the engine halted (R20). -/
  cause : Cause
  /-- The datum that goes with `cause` (R20). -/
  info : Word
  /-- The program buffer and its length `L` (R22). -/
  prog : Memory
  /-- The model's own: the bytes sent to the output stream, first to last (R130). -/
  output : List Byte
  /-- The model's own: the records sent to the diagnostic channel, first to last (R72). -/
  diag : List DiagRecord
deriving DecidableEq, Repr

/-- Why a step could stop without a next state: never. Every fault the spec describes is a transition to a halted
state that the spec gives in full (R142, R147), and the step is total (R74), so nothing raises a fault of the model and
the type has no constructor (safe; log entry 5). -/
inductive Fault where
deriving DecidableEq, Repr

/-- What is refused. -/
inductive Refusal where
  /-- Raised by an arm of `exec` whose instruction has no meaning yet; no arm does (safe). -/
  | notModelled (mnemonic : String)
  /-- Raised by the host commands RESET and LOAD_PROGRAM for a program longer than PROG_MAX, which "is refused by the
  host interface and never reaches the engine" (R172); no step raises it (safe). -/
  | programTooLong
deriving DecidableEq, Repr

/-- A program buffer of no bytes (R24: `L = 0` is allowed). -/
def Memory.empty : Memory := { cells := [], length := 0 }

/-- The machine right after RESET of the empty program (R24), nothing yet observed on the sinks (log entries 1, 2). -/
def State.reset : State where
  x := Vector.replicate Config.nregs 0
  pc := 0
  rem := 0
  eq := false
  status := .running
  cause := .none
  info := 0
  prog := Memory.empty
  output := []
  diag := []

end Sys2Proof.Machine
end

