-- ==== Sys2Proof/Machine/Memory.lean ====
section
/-! DEFINITION. The program buffer's operations (spec/20_memory.md). The engine only reads it (R32); the writing
operations serve the host's commands (spec/70_reset_and_hazards.md R172, R173) and `State.withFetchWord`. -/

namespace Sys2Proof.Machine

/-- What an unlisted address below `L` reads as (log entry 3). -/
def Memory.unlisted : Byte := 0

/-- The byte a cell list gives an address. -/
def lookupCell : List Host.Cell → Nat → Byte
  | [], _ => Memory.unlisted
  | (c, v) :: rest, a => if a = c then v else lookupCell rest a

/-- Give an address a byte, keeping addresses rising and listing no byte that equals `Memory.unlisted`. -/
def putCell (a : Nat) (b : Byte) : List Host.Cell → List Host.Cell
  | [] => if b = Memory.unlisted then [] else [(a, b)]
  | (c, v) :: rest =>
    if a < c then (if b = Memory.unlisted then (c, v) :: rest else (a, b) :: (c, v) :: rest)
    else if a = c then (if b = Memory.unlisted then rest else (a, b) :: rest)
    else (c, v) :: putCell a b rest

/-- The cells of consecutive bytes from an address on. -/
def cellsFrom (a : Nat) : List Byte → List Host.Cell
  | [] => []
  | b :: rest => if b = Memory.unlisted then cellsFrom (a + 1) rest else (a, b) :: cellsFrom (a + 1) rest

/-- The cells are in canonical form within `lo .. hi - 1`: addresses strictly rising, no entry equal to what an
unlisted address reads as. -/
def cellsOk : (lo hi : Nat) → List Host.Cell → Bool
  | _, _, [] => true
  | lo, hi, (a, v) :: rest => decide (lo ≤ a) && decide (a < hi) && decide (v ≠ Memory.unlisted) && cellsOk (a + 1) hi rest

/-- The buffer is in canonical form and no longer than PROG_MAX (R37). -/
def Memory.wf (m : Memory) : Bool := cellsOk 0 m.length m.cells && decide (m.length ≤ Config.progMax)

/-- `MemRead(a, 1)` with its bound: no byte at an offset at or past `L` (R7, R36). -/
def Memory.read (m : Memory) (a : Nat) : Option Byte :=
  if a < m.length then some (lookupCell m.cells a) else none

/-- The bytes an instruction fetch finds from an offset on: at most `count`, stopping at the end of the buffer
(R34, R36). -/
def Memory.fetch (m : Memory) (a : Nat) : (count : Nat) → List Byte
  | 0 => []
  | count + 1 =>
    match m.read a with
    | none => []
    | some b => b :: m.fetch (a + 1) count

/-- Store one byte, lengthening the buffer to hold it. No instruction does this (R32). -/
def Memory.write (m : Memory) (a : Nat) (b : Byte) : Memory :=
  { cells := putCell a b m.cells, length := max m.length (a + 1) }

/-- Store consecutive bytes from an address on. -/
def Memory.writeBytes (m : Memory) (a : Nat) : List Byte → Memory
  | [] => m
  | b :: rest => (m.write a b).writeBytes (a + 1) rest

/-- The buffer that holds exactly a byte sequence: wholesale replacement (R22). -/
def Memory.ofBytes (p : List Byte) : Memory := { cells := cellsFrom 0 p, length := p.length }

/-- The whole buffer as a byte sequence, as the host reads it (spec/70_reset_and_hazards.md R177). -/
def Memory.toBytes (m : Memory) : List Byte := (List.range m.length).map (lookupCell m.cells)

end Sys2Proof.Machine
end

