-- ==== Sys2Proof/Machine/Ops.lean ====
section
/-! DEFINITION. The named operations every meaning is built from: register and counter access, halting, taking a
fault, the sinks. A meaning runs on the state at the START of the step, so `pc` is still `pc0` (log entry 6). -/

namespace Sys2Proof.Machine

/-- What a step or a meaning answers. -/
abbrev Result := Host.Outcome State Fault Refusal

/-- The 4-bit code of a cause (spec/60_exceptions.md R141). -/
def Cause.code : Cause → BitVec 4
  | .none => 0
  | .endOfProgram => 1
  | .hltExecuted => 2
  | .unknownOpcode => 3
  | .truncatedFetch => 4
  | .registerIndex => 5
  | .divideByZero => 6
  | .divideOverflow => 7
  | .jumpRange => 8

/-- The one-bit code of a status: 0 Running, 1 Halted (spec/10_state.md R21). -/
def Status.code : Status → BitVec 1
  | .running => 0
  | .halted => 1

/-- Read a general register (R7, R11). -/
def State.reg (s : State) (i : RegIndex) : Word := s.x[i]

/-- Write a general register; none is hard-wired (R7, R12). -/
def State.setReg (s : State) (i : RegIndex) (v : Word) : State := { s with x := s.x.set i v }

/-- Write the remainder register (R7, R17). -/
def State.setRem (s : State) (v : Word) : State := { s with rem := v }

/-- Write the equal flag (R7, R18). -/
def State.setEq (s : State) (b : Bool) : State := { s with eq := b }

/-- The offset a register value names, as it moves into `pc` (spec/92_eei_decisions.md D8: XLEN and PCW are equal, so
no bit is added or lost). -/
def offsetOf (v : Word) : Offset := v.setWidth Config.pcw

/-- Write the program counter (R7). -/
def State.setPc (s : State) (t : Offset) : State := { s with pc := t }

/-- Move the program counter past the bytes of an instruction (R16). -/
def State.advance (s : State) (n : Offset) : State := { s with pc := s.pc + n }

/-- `halt(c)` with its datum: stop with a cause (R7, R20). -/
def State.halt (s : State) (c : Cause) (i : Word) : State := { s with status := .halted, cause := c, info := i }

/-- `emit`: append bytes to the output stream (R130). -/
def State.emit (s : State) (bytes : List Byte) : State := { s with output := s.output ++ bytes }

/-- `diag`: send one record to the diagnostic channel (spec/40_execution_cycle.md R72). -/
def State.sendDiag (s : State) (r : DiagRecord) : State := { s with diag := s.diag ++ [r] }

/-- TAKING A FAULT (R147): registers, `rem`, `eq` and the sinks as at the start of the step, `pc` at the faulting
instruction's opcode byte, status Halted, cause and info recorded. `s` is the state at the start of the step, so its
`pc` is `pc0`. There is no return from a fault (R149): RESET and LOAD_PROGRAM are the only ways out. -/
def raise (c : Cause) (i : Word) (s : State) : State := { s with pc := s.pc, status := .halted, cause := c, info := i }

/-- The clean halt at the end of the program: nothing else changes (R67). -/
def haltEndOfProgram (s : State) : State := s.halt .endOfProgram 0

/-- The halt on an unmapped opcode byte: `pc` past that byte, one diagnostic record, not rolled back (R71). -/
def haltUnknown (b0 : Byte) (s : State) : State :=
  ((s.advance 1).sendDiag { cause := .unknownOpcode, value := b0 }).halt .unknownOpcode (b0.setWidth Config.xlen)

end Sys2Proof.Machine
end

