-- ==== Sys2Proof/Machine/Cycle.lean ====
section
/-! DEFINITION. The common part of the step: what comes before an instruction's own meaning
(spec/40_execution_cycle.md R66), with the meanings given as an argument. -/

namespace Sys2Proof.Machine

/-- The bytes the fetch finds at `pc`: at most those of the longest instruction (R34, R66; log entry 7). -/
def fetchWindow (s : State) : List Byte := s.prog.fetch s.pc.toNat Config.maxInstrBytes

/-- One step of the engine (R66): nothing when halted (R73); EndOfProgram when `pc >= L` (R67); the Unknown halt
(R71); TruncatedFetch when an operand byte is missing (R68); otherwise the instruction. The window has no byte exactly
when `pc >= L`. -/
def cycle (execute : Instr → State → Result) (s : State) : Result :=
  match s.status with
  | .halted => .next s
  | .running =>
    match decode (fetchWindow s) with
    | .ok (i, _) => execute i s
    | .error .noBytes => .next (haltEndOfProgram s)
    | .error (.unknownOpcode b0) => .next (haltUnknown b0 s)
    | .error .truncated => .next (raise .truncatedFetch 0 s)

/-- Store bytes where the next step fetches, and let that step run: Running, with no halt recorded (log entry 2). -/
def placeAtPc (bytes : List Byte) (s : State) : State :=
  { s with prog := s.prog.writeBytes s.pc.toNat bytes, status := .running, cause := .none, info := 0 }

end Sys2Proof.Machine
end

