-- ==== Sys2Proof/Machine/Alu.lean ====
section
/-! DEFINITION. The arithmetic results: operands read as signed integers, computed exactly, narrowed at the end
(spec/00_scope.md R6, spec/42_arithmetic.md). -/

namespace Sys2Proof.Machine

/-- The pattern of `wrap32(n)`: an integer reduced modulo `2^32` (R6, R90; the spec's decision D5, log entry
13). -/
def wrapWord (n : Int) : Word := BitVec.ofInt Config.xlen n

/-- The sum of ADD (R85). -/
def sumOf (a b : Word) : Word := wrapWord (a.toInt + b.toInt)

/-- The difference of SUB, first operand minus second (R86). -/
def differenceOf (a b : Word) : Word := wrapWord (a.toInt - b.toInt)

/-- The low 32 bits of MUL's product (R87). -/
def productOf (a b : Word) : Word := wrapWord (a.toInt * b.toInt)

/-- The quotient of DIV, rounded toward zero: `tdiv` (R6, R88). -/
def quotientOf (n m : Word) : Word := wrapWord (n.toInt.tdiv m.toInt)

/-- The integer remainder of DIV, `trem`: zero or the sign of the dividend (R6, R88, R89). -/
def remainderOf (n m : Word) : Int := n.toInt.tmod m.toInt

/-- The conversion of a remainder into the unsigned register `rem`: its two's-complement pattern (R89; the spec's
decision D7; UNVERIFIED, unsafe, log entry 14). -/
def remainderPattern (r : Int) : Word := wrapWord r

/-- The one quotient that does not fit: `INT_MIN / -1` (R94). -/
def quotientOverflows (n m : Word) : Bool := decide (n.toInt = intMin) && decide (m.toInt = -1)

end Sys2Proof.Machine
end

