-- ==== Sys2Proof/Machine/Operands.lean ====
section
/-! DEFINITION. The operand forms: the checked register index and the widened immediate (spec/30_encoding.md R49,
R50). -/

namespace Sys2Proof.Machine

/-- `regidx(b)`: the register a field byte names, none for 32 to 255 (R7, R14). -/
def regidx (b : Byte) : Option RegIndex :=
  if h : b.toNat < Config.nregs then some ⟨b.toNat, h⟩ else none

/-- Check one register field and go on with the register it names, or raise RegisterIndex with that byte (R69, R144).
Nested in field order, the first bad field is the one reported (R146). -/
def withReg (b : Byte) (s : State) (k : RegIndex → Result) : Result :=
  match regidx b with
  | some i => k i
  | none => .next (raise .registerIndex (b.setWidth Config.xlen) s)

/-- `IMM16_EXTEND`: how STORE widens its immediate, `sext_16` (R50, spec/41_load_immediate.md R81; the spec's decision
D4; UNVERIFIED, unsafe, log entry 12). -/
def imm16Extend (v : Imm16) : Word := v.signExtend Config.xlen

end Sys2Proof.Machine
end

