-- ==== Sys2Proof/Machine/Arithmetic.lean ====
section
/-! DEFINITION. ADD, SUB, MUL, DIV (spec/42_arithmetic.md). -/

namespace Sys2Proof.Machine

/-- The common shape of ADD, SUB and MUL: check the three fields in order, read both sources, write the destination
(R69, R91). -/
def binaryOp (f : Word → Word → Word) (r1 r2 dest : Byte) (s : State) : Result :=
  withReg r1 s fun a => withReg r2 s fun b => withReg dest s fun d =>
    .next ((s.setReg d (f (s.reg a) (s.reg b))).advance 4)

/-- ADD (R85). -/
def execAdd (r1 r2 dest : Byte) (s : State) : Result := binaryOp sumOf r1 r2 dest s

/-- SUB (R86). -/
def execSub (r1 r2 dest : Byte) (s : State) : Result := binaryOp differenceOf r1 r2 dest s

/-- MUL (R87). -/
def execMul (r1 r2 dest : Byte) (s : State) : Result := binaryOp productOf r1 r2 dest s

/-- DIV (R88): a zero divisor raises DivideByZero (R93), `INT_MIN / -1` raises DivideOverflow (R94), otherwise the
quotient goes to the destination and the remainder's pattern to `rem` (R89). -/
def execDiv (r1 r2 dest : Byte) (s : State) : Result :=
  withReg r1 s fun a => withReg r2 s fun b => withReg dest s fun d =>
    if s.reg b = 0 then .next (raise .divideByZero 0 s)
    else if quotientOverflows (s.reg a) (s.reg b) then .next (raise .divideOverflow 0 s)
    else .next (((s.setReg d (quotientOf (s.reg a) (s.reg b))).setRem
      (remainderPattern (remainderOf (s.reg a) (s.reg b)))).advance 4)

end Sys2Proof.Machine
end

