-- ==== Sys2Proof/Machine/Flags.lean ====
section
/-! DEFINITION. The one flag of the machine and how each comparison computes it, on signed readings
(spec/44_compare.md R121, R122). There is no carry, overflow, zero or sign flag (spec/10_state.md R18). -/

namespace Sys2Proof.Machine

/-- EQ's predicate (R115). -/
def flagEq (u v : Word) : Bool := decide (u.toInt = v.toInt)

/-- NEQ's predicate (R116). -/
def flagNeq (u v : Word) : Bool := decide (u.toInt ≠ v.toInt)

/-- GT's predicate (R117). -/
def flagGt (u v : Word) : Bool := decide (u.toInt > v.toInt)

/-- LT's predicate (R118). -/
def flagLt (u v : Word) : Bool := decide (u.toInt < v.toInt)

/-- GTE's predicate (R119). -/
def flagGte (u v : Word) : Bool := decide (u.toInt ≥ v.toInt)

/-- LTE's predicate (R120). -/
def flagLte (u v : Word) : Bool := decide (u.toInt ≤ v.toInt)

end Sys2Proof.Machine
end

