-- ==== Sys2Proof/Machine/Compare.lean ====
section
/-! DEFINITION. EQ, NEQ, GT, LT, GTE, LTE (spec/44_compare.md). -/

namespace Sys2Proof.Machine

/-- The common shape of the comparisons (R121): check the two register fields in order, write `eq`. The pad byte was
fetched and is ignored (R124). -/
def compareOp (p : Word → Word → Bool) (r1 r2 : Byte) (s : State) : Result :=
  withReg r1 s fun a => withReg r2 s fun b =>
    .next ((s.setEq (p (s.reg a) (s.reg b))).advance 4)

/-- EQ (R115). -/
def execEq (r1 r2 _pad : Byte) (s : State) : Result := compareOp flagEq r1 r2 s

/-- NEQ (R116). -/
def execNeq (r1 r2 _pad : Byte) (s : State) : Result := compareOp flagNeq r1 r2 s

/-- GT (R117). -/
def execGt (r1 r2 _pad : Byte) (s : State) : Result := compareOp flagGt r1 r2 s

/-- LT (R118). -/
def execLt (r1 r2 _pad : Byte) (s : State) : Result := compareOp flagLt r1 r2 s

/-- GTE (R119). -/
def execGte (r1 r2 _pad : Byte) (s : State) : Result := compareOp flagGte r1 r2 s

/-- LTE (R120). -/
def execLte (r1 r2 _pad : Byte) (s : State) : Result := compareOp flagLte r1 r2 s

end Sys2Proof.Machine
end

