-- ==== Sys2Proof/Machine/Control.lean ====
section
/-! DEFINITION. HLT (spec/40_execution_cycle.md R70). -/

namespace Sys2Proof.Machine

/-- HLT: stop, `pc` past the opcode byte (R70). -/
def execHlt (s : State) : Result := .next ((s.advance 1).halt .hltExecuted 0)

end Sys2Proof.Machine
end

