-- ==== Sys2Proof/Machine/Jumps.lean ====
section
/-! DEFINITION. JMP, JMPF, JMPB, JMPE (spec/43_jumps.md). -/

namespace Sys2Proof.Machine

/-- A register value that no jump accepts as a target or distance: a negative one (R105). -/
def isNegative (v : Word) : Bool := decide (v.toInt < 0)

/-- The offset after a two-byte jump, the base of a relative jump (R102). -/
def jumpBase (s : State) : Offset := s.pc + 2

/-- Go to the offset a register value holds, or raise JumpRange (R100, R105). -/
def jumpTo (v : Word) (s : State) : Result :=
  if isNegative v then .next (raise .jumpRange v s) else .next (s.setPc (offsetOf v))

/-- JMP (R100). -/
def execJmp (reg : Byte) (s : State) : Result :=
  withReg reg s fun t => jumpTo (s.reg t) s

/-- JMPF (R101). -/
def execJmpf (reg : Byte) (s : State) : Result :=
  withReg reg s fun t =>
    if isNegative (s.reg t) then .next (raise .jumpRange (s.reg t) s)
    else .next (s.setPc (jumpBase s + offsetOf (s.reg t)))

/-- JMPB; a distance beyond offset 0 raises JumpRange (R103). -/
def execJmpb (reg : Byte) (s : State) : Result :=
  withReg reg s fun t =>
    if isNegative (s.reg t) then .next (raise .jumpRange (s.reg t) s)
    else if s.pc.toNat + 2 < (s.reg t).toNat then .next (raise .jumpRange (s.reg t) s)
    else .next (s.setPc (jumpBase s - offsetOf (s.reg t)))

/-- JMPE: the register field is checked whether or not the jump is taken (R69, R104). -/
def execJmpe (reg : Byte) (s : State) : Result :=
  withReg reg s fun t =>
    if s.eq then jumpTo (s.reg t) s else .next (s.advance 2)

end Sys2Proof.Machine
end

