-- ==== Sys2Proof/Machine/LoadImmediate.lean ====
section
/-! DEFINITION. STORE, the load of an immediate into a register (spec/41_load_immediate.md). -/

namespace Sys2Proof.Machine

/-- STORE: the register takes the widened immediate (R80). -/
def execStore (reg : Byte) (imm16 : Imm16) (s : State) : Result :=
  withReg reg s fun d => .next ((s.setReg d (imm16Extend imm16)).advance 4)

end Sys2Proof.Machine
end

