-- ==== Sys2Proof/Machine/Output.lean ====
section
/-! DEFINITION. PRINT, PRINTLN and the decimal text they send (spec/45_output.md). -/

namespace Sys2Proof.Machine

/-- The ASCII byte of a decimal digit, 0x30 to 0x39 (R131, log entry 15). -/
def digitByte (d : Nat) : Byte := BitVec.ofNat 8 (0x30 + d)

/-- The ASCII byte of `-` (R131). -/
def minusByte : Byte := 0x2D

/-- The newline, the single byte 0x0A (R131, R133). -/
def newlineByte : Byte := 0x0A

/-- The decimal digits of a number, most significant first, no leading zero; `fuel + 1` digits at most. -/
def decimalDigits : (fuel n : Nat) → List Nat
  | 0, n => [n % 10]
  | fuel + 1, n => if n < 10 then [n] else decimalDigits fuel (n / 10) ++ [n % 10]

/-- `dec(v)`: the decimal text of a signed 32-bit value (R131; the spec's decision D12; UNVERIFIED for negative values,
unsafe, log entry 15). The magnitude is below `2^32`, so ten digits are enough. -/
def dec (v : Word) : List Byte :=
  (if v.toInt < 0 then [minusByte] else []) ++ (decimalDigits 9 v.toInt.natAbs).map digitByte

/-- PRINT (R132). -/
def execPrint (reg : Byte) (s : State) : Result :=
  withReg reg s fun r => .next ((s.emit (dec (s.reg r))).advance 2)

/-- PRINTLN: the text and the newline in one emission (R133). -/
def execPrintln (reg : Byte) (s : State) : Result :=
  withReg reg s fun r => .next ((s.emit (dec (s.reg r) ++ [newlineByte])).advance 2)

end Sys2Proof.Machine
end

