-- ==== Sys2Proof/Machine/Dispatch.lean ====
section
/-! DEFINITION. One arm per instruction. -/

namespace Sys2Proof.Machine

def exec (i : Instr) (s : State) : Host.Outcome State Fault Refusal :=
  match i with
  | .hlt => Sys2Proof.Machine.execHlt s
  | .store reg imm16 => Sys2Proof.Machine.execStore reg imm16 s
  | .add r1 r2 dest => Sys2Proof.Machine.execAdd r1 r2 dest s
  | .sub r1 r2 dest => Sys2Proof.Machine.execSub r1 r2 dest s
  | .mul r1 r2 dest => Sys2Proof.Machine.execMul r1 r2 dest s
  | .div r1 r2 dest => Sys2Proof.Machine.execDiv r1 r2 dest s
  | .jmp reg => Sys2Proof.Machine.execJmp reg s
  | .jmpf reg => Sys2Proof.Machine.execJmpf reg s
  | .jmpb reg => Sys2Proof.Machine.execJmpb reg s
  | .eq r1 r2 pad => Sys2Proof.Machine.execEq r1 r2 pad s
  | .neq r1 r2 pad => Sys2Proof.Machine.execNeq r1 r2 pad s
  | .gt r1 r2 pad => Sys2Proof.Machine.execGt r1 r2 pad s
  | .lt r1 r2 pad => Sys2Proof.Machine.execLt r1 r2 pad s
  | .gte r1 r2 pad => Sys2Proof.Machine.execGte r1 r2 pad s
  | .lte r1 r2 pad => Sys2Proof.Machine.execLte r1 r2 pad s
  | .jmpe reg => Sys2Proof.Machine.execJmpe reg s
  | .print reg => Sys2Proof.Machine.execPrint reg s
  | .println reg => Sys2Proof.Machine.execPrintln reg s

end Sys2Proof.Machine
end

