-- ==== Sys2Proof/Machine/Step.lean ====
section
/-! DEFINITION. The step (spec/40_execution_cycle.md R66), and the placing of one instruction where it fetches. -/

namespace Sys2Proof.Machine

/-- One step of the engine (R66). -/
def step (s : State) : Host.Outcome State Fault Refusal := cycle exec s

/-- The state with one instruction of spec/opcode_table.json stored where the next step fetches (log entries 2, 8). -/
def State.withFetchWord (s : State) (nbits w : Nat) : State := placeAtPc (tableBytes nbits w) s

end Sys2Proof.Machine
end

