-- ==== Sys2Proof/Machine/Commands.lean ====
section
/-! DEFINITION. The host's five commands (spec/70_reset_and_hazards.md R170). They act between steps only (R180). -/

namespace Sys2Proof.Machine

/-- RESET(p): every register, `rem` and `eq` cleared, the program replaced, the sinks untouched (R172, R24). -/
def resetWith (p : List Byte) (s : State) : State :=
  { State.reset with prog := Memory.ofBytes p, output := s.output, diag := s.diag }

/-- LOAD_PROGRAM(p): the program replaced and run from offset 0; registers, `rem` and `eq` kept (R173, R25). -/
def loadWith (p : List Byte) (s : State) : State :=
  { s with prog := Memory.ofBytes p, pc := 0, status := .running, cause := .none, info := 0 }

/-- RESET; a program longer than PROG_MAX is refused (R172). -/
def cmdReset (p : List Byte) (s : State) : Result :=
  if p.length ≤ Config.progMax then .next (resetWith p s) else .refused .programTooLong

/-- LOAD_PROGRAM, in either status (R173, R44); the same bound. -/
def cmdLoadProgram (p : List Byte) (s : State) : Result :=
  if p.length ≤ Config.progMax then .next (loadWith p s) else .refused .programTooLong

/-- STEP: one step, with the Boolean `halted` it returns (R174). -/
def cmdStep (s : State) : Host.Outcome (State × Bool) Fault Refusal :=
  match step s with
  | .next t => .next (t, decide (t.status = .halted))
  | .fault r => .fault r
  | .refused r => .refused r

/-- RUN, cut off after a number of steps: repeat STEP until it returns `halted = true` (R176). The machine has no
budget; the number only says how far the run is followed (log entry 9). -/
def runWithin : Nat → State → Option State
  | 0, _ => none
  | n + 1, s =>
    match cmdStep s with
    | .next (t, true) => some t
    | .next (t, false) => runWithin n t
    | .fault _ => none
    | .refused _ => none

/-- RUN from `s` returns, leaving `t` (R176, R182). -/
def RunEnds (s t : State) : Prop := ∃ n, runWithin n s = some t

/-- RUN from `s` never returns (R176, R111). -/
def Hangs (s : State) : Prop := ∀ n, runWithin n s = none

/-- What READ returns (R177). -/
structure Snapshot where
  x : Vector Word Config.nregs
  pc : Offset
  rem : Word
  eq : Bool
  status : BitVec 1
  cause : BitVec 4
  info : Word
  len : Nat
  prog : List Byte
deriving DecidableEq, Repr

/-- READ: the current values, nothing changed (R177). -/
def cmdRead (s : State) : Snapshot where
  x := s.x
  pc := s.pc
  rem := s.rem
  eq := s.eq
  status := s.status.code
  cause := s.cause.code
  info := s.info
  len := s.prog.length
  prog := s.prog.toBytes

/-- A host command that changes the state (R170); RUN is a sequence of STEPs (R176) and READ changes nothing. -/
inductive Command where
  | reset (p : List Byte)
  | loadProgram (p : List Byte)
  | step
deriving DecidableEq, Repr

/-- The effect of a command. -/
def applyCommand : Command → State → Result
  | .reset p, s => cmdReset p s
  | .loadProgram p, s => cmdLoadProgram p s
  | .step, s => step s

/-- The states the host can bring the engine to, starting from reset (R171). -/
inductive Reachable : State → Prop where
  | reset : Reachable State.reset
  | command (c : Command) (s t : State) : Reachable s → applyCommand c s = .next t → Reachable t

end Sys2Proof.Machine
end

