-- ==== Sys2Proof/Safety.lean ====
section
/-! DEFINITION. What counts as a safe state and a good end of a run, in the terms the statements use. -/

namespace Sys2Proof.Machine

/-- The engine stopped by a clean halt: cause 1 or 2 (spec/60_exceptions.md R140). -/
abbrev EndedWell (s : State) : Prop := s.cause.code.toNat ∈ [1, 2]

/-- The engine stopped on something gone wrong: cause 3 to 8 (R140). -/
abbrev GoneWrong (s : State) : Prop := s.cause.code.toNat ∈ [3, 4, 5, 6, 7, 8]

/-- The recorded cause is one of the faults, codes 4 to 8 (R147). -/
abbrev Faulted (s : State) : Prop := s.cause.code.toNat ∈ [4, 5, 6, 7, 8]

/-- The facts that hold between steps (spec/10_state.md R28): the halt record agrees with the status (b), `pc` is at
most `2^32 - 2` (c), and the program buffer is in canonical form and no longer than PROG_MAX (R37). R28 (a) holds by
the fields' types. -/
structure State.Inv (s : State) : Prop where
  running_record : s.status = .running → s.cause = .none ∧ s.info = 0
  halted_record : s.status = .halted → s.cause ≠ .none
  pc_bound : s.pc.toNat ≤ 4294967294
  prog_wf : s.prog.wf = true

/-- No register differs. -/
def RegsKept (s t : State) : Prop := ∀ i, t.reg i = s.reg i

/-- No register but `d` differs. -/
def RegsKeptBut (d : RegIndex) (s t : State) : Prop := ∀ i, i ≠ d → t.reg i = s.reg i

/-- No byte of the program buffer differs, nor its length (there is no other memory, spec/20_memory.md R31). -/
def ProgramKept (s t : State) : Prop := t.prog.length = s.prog.length ∧ ∀ a, t.prog.read a = s.prog.read a

/-- Nothing was sent to either sink. -/
def SinksKept (s t : State) : Prop := t.output = s.output ∧ t.diag = s.diag

/-- The halt record and the status are as before. -/
def ControlKept (s t : State) : Prop := t.status = s.status ∧ t.cause = s.cause ∧ t.info = s.info

/-- The engine halted with a cause and a datum. -/
def HaltedWith (t : State) (c : Cause) (i : Word) : Prop := t.status = .halted ∧ t.cause = c ∧ t.info = i

/-- What a fault leaves (spec/60_exceptions.md R147): everything as at the start of the step, `pc` included, and the
halt record. -/
def FaultEntry (c : Cause) (i : Word) (s t : State) : Prop :=
  RegsKept s t ∧ t.rem = s.rem ∧ t.eq = s.eq ∧ t.pc = s.pc ∧ SinksKept s t ∧ ProgramKept s t ∧ HaltedWith t c i

/-- `m` is `wrap32(n)`: the value in `INT_MIN .. INT_MAX` congruent to `n` modulo `2^32` (spec/00_scope.md R6). -/
def IsWrap32 (m n : Int) : Prop := intMin ≤ m ∧ m ≤ intMax ∧ (4294967296 : Int) ∣ m - n

/-- The first register field of an instruction, in field order, that names no register (spec/40_execution_cycle.md
R69). -/
def firstBadField (i : Instr) : Option Byte := i.regFields.find? fun b => !regFieldOk b

/-- The bytes standing in the program from `pc` on begin with these (R66). -/
def BytesAtPc (s : State) (bytes : List Byte) : Prop :=
  ∀ k, k < bytes.length → s.prog.read (s.pc.toNat + k) = bytes[k]?

/-- What every instruction rule says besides the instruction's own effect: its bytes (spec/30_encoding.md R47, R52);
TruncatedFetch when its opcode byte is inside the program and one of its other bytes is past the end
(spec/60_exceptions.md R143); RegisterIndex with the first register field of 32 or more (R144). -/
def CommonPart (i : Instr) (bytes : List Byte) : Prop :=
  encode i = bytes ∧
  (∀ s : State, s.status = .running → BytesAtPc s (bytes.take 1) → s.prog.length < s.pc.toNat + bytes.length →
    ∃ t, step s = .next t ∧ FaultEntry .truncatedFetch 0 s t) ∧
  (∀ (s : State) (b : Byte), firstBadField i = some b →
    ∃ t, exec i s = .next t ∧ FaultEntry .registerIndex (b.setWidth Config.xlen) s t)

end Sys2Proof.Machine
end

