-- ==== Sys2Proof/Certificates/Slice0/Obligations.lean ====
section
/-! DEFINITION. The statements for the provers. The file states and never proves. -/

open Sys2Proof Sys2Proof.Machine

/-! ### Encoding and decoding (spec/30_encoding.md) -/

/-- The decoder reads an instruction from exactly the byte sequences that begin with that instruction's bytes, and
returns the bytes after them: no bit of an encoding is dropped, and nothing else decodes to it. It says that decode and
encode agree with each other; that both follow the opcode map is `OpcodeBytesFollowTheMap`. -/
def Obligations.DecodeExactlyInvertsEncode : Prop :=
  ∀ (i : Instr) (bytes rest : List Byte), decode bytes = .ok (i, rest) ↔ bytes = encode i ++ rest

/-- R53, R54: which byte sequences do not decode, and how each is rejected: no byte at all; an opcode byte from 0x12 to
0xFF, whatever follows; a mapped opcode byte with fewer bytes than its format needs. -/
def Obligations.DecodeRejectsByName : Prop :=
  ∀ bytes : List Byte,
    (decode bytes = .error .noBytes ↔ bytes = []) ∧
    (∀ b0, decode bytes = .error (.unknownOpcode b0) ↔ bytes.head? = some b0 ∧ 0x12 ≤ b0.toNat) ∧
    (decode bytes = .error .truncated ↔
      ∃ op rest, bytes = opmap op :: rest ∧ bytes.length < op.format.length)

/-- R52: the byte value of each of the 18 opcodes (the spec's decision D1), both ways, and every other byte Unknown. -/
def Obligations.OpcodeBytesFollowTheMap : Prop :=
  (allOpcodes.map opmap =
    [0x00, 0x01, 0x02, 0x03, 0x04, 0x05, 0x06, 0x07, 0x08, 0x09, 0x0A, 0x0B, 0x0C, 0x0D, 0x0E, 0x0F, 0x10, 0x11]) ∧
  (∀ op, opcodeOf (opmap op) = some op) ∧
  (∀ b : Byte, opcodeOf b = none ↔ 0x12 ≤ b.toNat)

/-- R46: HLT has 1 byte; JMP, JMPF, JMPB, JMPE, PRINT and PRINTLN have 2; every other instruction has 4; and the length
depends on the first byte alone. -/
def Obligations.InstructionLengths : Prop :=
  (∀ i : Instr, (encode i).length =
    if i.opcode = .hlt then 1
    else if i.opcode ∈ [Opcode.jmp, .jmpf, .jmpb, .jmpe, .print, .println] then 2 else 4) ∧
  (∀ i j : Instr, (encode i).head? = (encode j).head? → (encode i).length = (encode j).length)

/-- Sanity: the words that R62 writes out decode to the instructions it names. -/
def Obligations.SampleWordsDecode : Prop :=
  decode [0x01, 0x00, 0x03, 0xE8] = .ok (.store 0 1000, []) ∧
  decode [0x01, 0x03, 0xFF, 0xFF] = .ok (.store 3 0xFFFF, []) ∧
  decode [0x02, 0x00, 0x01, 0x02] = .ok (.add 0 1 2, []) ∧
  decode [0x09, 0x00, 0x01, 0x00] = .ok (.eq 0 1 0, []) ∧
  decode [0x0F, 0x02] = .ok (.jmpe 2, []) ∧
  decode [0x11, 0x00] = .ok (.println 0, []) ∧
  decode [0x00] = .ok (.hlt, [])

/-- R51: the pad byte of a comparison must be in the buffer, and its value has no effect: all 256 values give the same
result, and it is no register field. -/
def Obligations.PadByteIgnored : Prop :=
  ∀ mk ∈ [Instr.eq, .neq, .gt, .lt, .gte, .lte], ∀ r1 r2 pad pad' : Byte,
    (∀ s, exec (mk r1 r2 pad) s = exec (mk r1 r2 pad') s) ∧
    (mk r1 r2 pad).regFields = [r1, r2] ∧
    decode ((encode (mk r1 r2 pad)).take 3) = .error .truncated ∧
    ∀ rest, decode ((encode (mk r1 r2 pad)).take 3 ++ pad' :: rest) = .ok (mk r1 r2 pad', rest)

/-! ### The step (spec/40_execution_cycle.md) -/

/-- R66: when the engine is running and the bytes at `pc` decode to an instruction, the step is that instruction's
meaning on the state at the start of the step, with nothing added before or after it. -/
def Obligations.StepRunsDecodedInstruction : Prop :=
  ∀ (s : State) (i : Instr) (rest : List Byte), s.status = .running →
    decode (fetchWindow s) = .ok (i, rest) → step s = exec i s

/-- R66, R68: when the engine is running and the program holds an instruction's bytes from `pc` on, the step is that
instruction's meaning. -/
def Obligations.StepRunsInstructionStoredAtPc : Prop :=
  ∀ (s : State) (i : Instr), s.status = .running → BytesAtPc s (encode i) → step s = exec i s

/-- R67: when `pc` is at or past the end of the program as a step begins, the step halts cleanly with cause
EndOfProgram, and `pc`, the registers, `rem`, `eq`, the program and the sinks are as before. -/
def Obligations.EndOfProgramHaltsCleanly : Prop :=
  ∀ s : State, s.status = .running → s.prog.length ≤ s.pc.toNat →
    ∃ t, step s = .next t ∧ HaltedWith t .endOfProgram 0 ∧ t.pc = s.pc ∧ RegsKept s t ∧ t.rem = s.rem ∧
      t.eq = s.eq ∧ SinksKept s t ∧ ProgramKept s t ∧ EndedWell t

/-- R71: an opcode byte from 0x12 to 0xFF halts the engine with cause UnknownOpcode and that byte as `info`, leaves
`pc` one past it, sends one diagnostic record, and changes nothing else; the operands are not looked at, so the byte may
be the last of the program. -/
def Obligations.UnknownOpcodeHalts : Prop :=
  ∀ (s : State) (b0 : Byte), s.status = .running → BytesAtPc s [b0] → 0x12 ≤ b0.toNat →
    ∃ t, step s = .next t ∧ HaltedWith t .unknownOpcode (b0.setWidth Config.xlen) ∧ t.pc = s.pc + 1 ∧
      t.diag = s.diag ++ [{ cause := .unknownOpcode, value := b0 }] ∧ t.output = s.output ∧
      RegsKept s t ∧ t.rem = s.rem ∧ t.eq = s.eq ∧ ProgramKept s t ∧ GoneWrong t

/-- R73, R175: a STEP on a halted engine changes no state and sends nothing; it returns `halted = true`. So does a RUN,
and so do any number of steps. -/
def Obligations.HaltedEngineStaysPut : Prop :=
  ∀ s : State, s.status = .halted →
    cmdStep s = .next (s, true) ∧ RunEnds s s ∧
    (∀ n, Sys2Proof.core.run n s = .next s) ∧ ∀ t, RunEnds s t → t = s

/-- R74: every step has exactly one next state; no step faults or is refused in the model's own sense. -/
def Obligations.EveryStepAnswersANextState : Prop :=
  ∀ s : State, ∃ t, step s = .next t ∧ ∀ u, step s = .next u → u = t

/-- R174: STEP returns true exactly when the engine is halted after the step. -/
def Obligations.StepReportsHalted : Prop :=
  ∀ s t halted, cmdStep s = .next (t, halted) → step s = .next t ∧ (halted = true ↔ t.status = .halted)

/-! ### Halts and faults (spec/60_exceptions.md) -/

/-- R147, R148: a step that ends in a fault (cause 4 to 8) leaves registers, `rem`, `eq`, both sinks and the program as
they were and `pc` at the faulting instruction's opcode byte, and halts. The premise is the invariant of R28, without
which a running engine could carry an old cause. -/
def Obligations.FaultsArePrecise : Prop :=
  ∀ s t : State, s.Inv → s.status = .running → step s = .next t → Faulted t →
    FaultEntry t.cause t.info s t

/-- R143: with the opcode byte inside the program, a step raises TruncatedFetch exactly when one of the instruction's
other bytes lies at or past the end. -/
def Obligations.TruncatedFetchExactly : Prop :=
  ∀ (s t : State) (op : Opcode), s.Inv → s.status = .running → BytesAtPc s [opmap op] → step s = .next t →
    ((t.cause = .truncatedFetch ↔ s.prog.length < s.pc.toNat + op.format.length) ∧
      (t.cause = .truncatedFetch → FaultEntry .truncatedFetch 0 s t))

/-- R69, R144, R146: an instruction raises RegisterIndex exactly when one of its register fields is 32 or more, with the
first such byte as `info`, whatever else is wrong with it and also when it would not have used the register. -/
def Obligations.RegisterIndexExactly : Prop :=
  ∀ (i : Instr) (s t : State), s.Inv → s.status = .running → exec i s = .next t →
    ((t.cause = .registerIndex ↔ WellFormed i = false) ∧
      ∀ b, firstBadField i = some b → FaultEntry .registerIndex (b.setWidth Config.xlen) s t)

/-- R145: which instruction raises which fault of its own: DivideByZero and DivideOverflow only DIV; JumpRange only JMP,
JMPF, JMPB and a JMPE that finds `eq` true. -/
def Obligations.OwnFaultsByInstruction : Prop :=
  ∀ (i : Instr) (s t : State), s.Inv → s.status = .running → exec i s = .next t →
    ((t.cause = .divideByZero ∨ t.cause = .divideOverflow → i.opcode = .div) ∧
      (t.cause = .jumpRange → i.opcode ∈ [Opcode.jmp, .jmpf, .jmpb] ∨ (i.opcode = .jmpe ∧ s.eq = true)))

/-- R140, R146: how a running engine stops: it is Halted after a step exactly when the step recorded a cause, and the end
is either clean (cause 1 or 2) or gone wrong (cause 3 to 8), never both. -/
def Obligations.EveryHaltHasOneCause : Prop :=
  ∀ s t : State, s.Inv → s.status = .running → step s = .next t →
    (t.status = .halted ↔ (EndedWell t ∨ GoneWrong t)) ∧ ¬ (EndedWell t ∧ GoneWrong t)

/-! ### HLT and STORE -/

/-- R70: HLT halts with cause HltExecuted, `pc` after its byte, nothing else changed. -/
def Obligations.HltHalts : Prop :=
  encode .hlt = [0x00] ∧
  ∀ s : State, ∃ t, exec .hlt s = .next t ∧ HaltedWith t .hltExecuted 0 ∧ t.pc = s.pc + 1 ∧
    RegsKept s t ∧ t.rem = s.rem ∧ t.eq = s.eq ∧ SinksKept s t ∧ ProgramKept s t

/-- R80: STORE writes the sign-extended immediate (the spec's decision D4) to its register, any of the 32. -/
def Obligations.StoreLoadsSignExtendedImmediate : Prop :=
  (∀ reg (hi lo : Byte), CommonPart (.store reg (imm16OfBytes hi lo)) [0x01, reg, hi, lo]) ∧
  ∀ (s : State) (d : RegIndex) (hi lo : Byte), ∃ t,
    exec (.store (regByte d) (imm16OfBytes hi lo)) s = .next t ∧
    (t.reg d).toInt = (if hi.toNat * 256 + lo.toNat < 0x8000 then (hi.toNat * 256 + lo.toNat : Int)
      else (hi.toNat * 256 + lo.toNat : Int) - 0x10000) ∧
    RegsKeptBut d s t ∧ t.rem = s.rem ∧ t.eq = s.eq ∧ t.pc = s.pc + 4 ∧ ControlKept s t ∧ SinksKept s t ∧
    ProgramKept s t

/-- R62, R82: every decimal immediate from -32768 to 32767, emitted as the assembler emits it, is loaded as itself. -/
def Obligations.DecimalImmediateLoadsItself : Prop :=
  ∀ (n : Int) (s : State) (d : RegIndex), -32768 ≤ n → n ≤ 32767 →
    ∃ t, exec (.store (regByte d) (imm16OfDecimal n)) s = .next t ∧ (t.reg d).toInt = n

/-! ### Arithmetic (spec/42_arithmetic.md) -/

/-- R85, R90: ADD writes the wrapped sum of the two sources as they were before the instruction; any of the three
registers may coincide. -/
def Obligations.AddWrapsSum : Prop :=
  (∀ r1 r2 dest, CommonPart (.add r1 r2 dest) [0x02, r1, r2, dest]) ∧
  ∀ (s : State) (a b d : RegIndex), ∃ t,
    exec (.add (regByte a) (regByte b) (regByte d)) s = .next t ∧
    IsWrap32 (t.reg d).toInt ((s.reg a).toInt + (s.reg b).toInt) ∧
    RegsKeptBut d s t ∧ t.rem = s.rem ∧ t.eq = s.eq ∧ t.pc = s.pc + 4 ∧ ControlKept s t ∧ SinksKept s t ∧
    ProgramKept s t

/-- R86, R90: SUB writes the wrapped difference, first source minus second. -/
def Obligations.SubWrapsDifference : Prop :=
  (∀ r1 r2 dest, CommonPart (.sub r1 r2 dest) [0x03, r1, r2, dest]) ∧
  ∀ (s : State) (a b d : RegIndex), ∃ t,
    exec (.sub (regByte a) (regByte b) (regByte d)) s = .next t ∧
    IsWrap32 (t.reg d).toInt ((s.reg a).toInt - (s.reg b).toInt) ∧
    RegsKeptBut d s t ∧ t.rem = s.rem ∧ t.eq = s.eq ∧ t.pc = s.pc + 4 ∧ ControlKept s t ∧ SinksKept s t ∧
    ProgramKept s t

/-- R87, R90: MUL writes the full product reduced modulo `2^32`. -/
def Obligations.MulWrapsProduct : Prop :=
  (∀ r1 r2 dest, CommonPart (.mul r1 r2 dest) [0x04, r1, r2, dest]) ∧
  ∀ (s : State) (a b d : RegIndex), ∃ t,
    exec (.mul (regByte a) (regByte b) (regByte d)) s = .next t ∧
    IsWrap32 (t.reg d).toInt ((s.reg a).toInt * (s.reg b).toInt) ∧
    RegsKeptBut d s t ∧ t.rem = s.rem ∧ t.eq = s.eq ∧ t.pc = s.pc + 4 ∧ ControlKept s t ∧ SinksKept s t ∧
    ProgramKept s t

/-- R88, R89: DIV with a non-zero divisor, other than `INT_MIN / -1`, writes the quotient rounded toward zero and the
remainder's pattern, both computed from the sources as they were before the instruction. -/
def Obligations.DivWritesQuotientAndRemainder : Prop :=
  (∀ r1 r2 dest, CommonPart (.div r1 r2 dest) [0x05, r1, r2, dest]) ∧
  ∀ (s : State) (a b d : RegIndex), (s.reg b).toInt ≠ 0 → ¬ ((s.reg a).toInt = intMin ∧ (s.reg b).toInt = -1) →
    ∃ t, exec (.div (regByte a) (regByte b) (regByte d)) s = .next t ∧
      (t.reg d).toInt = (s.reg a).toInt.tdiv (s.reg b).toInt ∧
      (t.rem.toNat : Int) = ((s.reg a).toInt.tmod (s.reg b).toInt) % 4294967296 ∧
      RegsKeptBut d s t ∧ t.eq = s.eq ∧ t.pc = s.pc + 4 ∧ ControlKept s t ∧ SinksKept s t ∧ ProgramKept s t

/-- R89: after a DIV that completes, dividend = divisor * quotient + remainder, the remainder read from `rem` as a signed
pattern; it is smaller in magnitude than the divisor, and zero or of the dividend's sign. -/
def Obligations.DivRemainderLaw : Prop :=
  ∀ (s t : State) (a b d : RegIndex), s.Inv → s.status = .running →
    exec (.div (regByte a) (regByte b) (regByte d)) s = .next t → t.status = .running →
    (s.reg a).toInt = (s.reg b).toInt * (t.reg d).toInt + t.rem.toInt ∧
    t.rem.toInt.natAbs < (s.reg b).toInt.natAbs ∧
    (t.rem.toInt = 0 ∨ (0 < t.rem.toInt ∧ 0 < (s.reg a).toInt) ∨ (t.rem.toInt < 0 ∧ (s.reg a).toInt < 0))

/-- R93: DIV by zero raises DivideByZero whatever the dividend; the destination and `rem` keep their values. -/
def Obligations.DivByZeroFaults : Prop :=
  ∀ (s : State) (a b d : RegIndex), s.reg b = 0 →
    ∃ t, exec (.div (regByte a) (regByte b) (regByte d)) s = .next t ∧ FaultEntry .divideByZero 0 s t

/-- R94: `INT_MIN / -1` raises DivideOverflow with no effect, and it is the only quotient that does not fit. -/
def Obligations.DivOverflowFaults : Prop :=
  (∀ (s : State) (a b d : RegIndex), (s.reg a).toInt = intMin → (s.reg b).toInt = -1 →
    ∃ t, exec (.div (regByte a) (regByte b) (regByte d)) s = .next t ∧ FaultEntry .divideOverflow 0 s t) ∧
  ∀ n m : Word, m.toInt ≠ 0 → ¬ (n.toInt = intMin ∧ m.toInt = -1) →
    intMin ≤ n.toInt.tdiv m.toInt ∧ n.toInt.tdiv m.toInt ≤ intMax

/-! ### Jumps (spec/43_jumps.md) -/

/-- R100: JMP goes to the non-negative offset its register holds. -/
def Obligations.JmpGoesToRegister : Prop :=
  (∀ reg, CommonPart (.jmp reg) [0x06, reg]) ∧
  (∀ (s : State) (r : RegIndex), 0 ≤ (s.reg r).toInt → ∃ t, exec (.jmp (regByte r)) s = .next t ∧
    (t.pc.toNat : Int) = (s.reg r).toInt ∧ RegsKept s t ∧ t.rem = s.rem ∧ t.eq = s.eq ∧ ControlKept s t ∧
    SinksKept s t ∧ ProgramKept s t) ∧
  ∀ (s : State) (r : RegIndex), (s.reg r).toInt < 0 → ∃ t, exec (.jmp (regByte r)) s = .next t ∧
    FaultEntry .jumpRange (s.reg r) s t

/-- R101, R102, R108: JMPF goes forward from the offset after itself by the non-negative distance in its register; where
the instruction lies inside a program no longer than PROG_MAX there is no carry out of `pc`. -/
def Obligations.JmpfGoesForward : Prop :=
  (∀ reg, CommonPart (.jmpf reg) [0x07, reg]) ∧
  (∀ (s : State) (r : RegIndex), 0 ≤ (s.reg r).toInt → ∃ t, exec (.jmpf (regByte r)) s = .next t ∧
    t.pc = (s.pc + 2) + offsetOf (s.reg r) ∧
    (s.pc.toNat + 2 ≤ Config.progMax → (t.pc.toNat : Int) = (s.pc.toNat : Int) + 2 + (s.reg r).toInt) ∧
    RegsKept s t ∧ t.rem = s.rem ∧ t.eq = s.eq ∧ ControlKept s t ∧ SinksKept s t ∧ ProgramKept s t) ∧
  ∀ (s : State) (r : RegIndex), (s.reg r).toInt < 0 → ∃ t, exec (.jmpf (regByte r)) s = .next t ∧
    FaultEntry .jumpRange (s.reg r) s t

/-- R103: JMPB goes back from the offset after itself by the distance in its register; a negative distance, or one that
would go below offset 0, raises JumpRange. The premise on `pc` in the last clause of the result holds wherever the
instruction lies inside a program no longer than PROG_MAX. -/
def Obligations.JmpbGoesBackward : Prop :=
  (∀ reg, CommonPart (.jmpb reg) [0x08, reg]) ∧
  (∀ (s : State) (r : RegIndex), 0 ≤ (s.reg r).toInt → (s.reg r).toInt ≤ (s.pc.toNat : Int) + 2 →
    ∃ t, exec (.jmpb (regByte r)) s = .next t ∧ t.pc = (s.pc + 2) - offsetOf (s.reg r) ∧
      (s.pc.toNat ≤ 4294967293 → (t.pc.toNat : Int) = (s.pc.toNat : Int) + 2 - (s.reg r).toInt) ∧
      RegsKept s t ∧ t.rem = s.rem ∧ t.eq = s.eq ∧ ControlKept s t ∧ SinksKept s t ∧ ProgramKept s t) ∧
  ∀ (s : State) (r : RegIndex), (s.reg r).toInt < 0 ∨ (s.pc.toNat : Int) + 2 < (s.reg r).toInt →
    ∃ t, exec (.jmpb (regByte r)) s = .next t ∧ FaultEntry .jumpRange (s.reg r) s t

/-- R104: JMPE jumps as JMP does when `eq` is true, and otherwise falls through without looking at its register; `eq`
stays as it was. -/
def Obligations.JmpeJumpsWhenEq : Prop :=
  (∀ reg, CommonPart (.jmpe reg) [0x0F, reg]) ∧
  (∀ (s : State) (r : RegIndex), s.eq = true → 0 ≤ (s.reg r).toInt → ∃ t, exec (.jmpe (regByte r)) s = .next t ∧
    (t.pc.toNat : Int) = (s.reg r).toInt ∧ RegsKept s t ∧ t.rem = s.rem ∧ t.eq = s.eq ∧ ControlKept s t ∧
    SinksKept s t ∧ ProgramKept s t) ∧
  (∀ (s : State) (r : RegIndex), s.eq = true → (s.reg r).toInt < 0 → ∃ t, exec (.jmpe (regByte r)) s = .next t ∧
    FaultEntry .jumpRange (s.reg r) s t) ∧
  ∀ (s : State) (r : RegIndex), s.eq = false → ∃ t, exec (.jmpe (regByte r)) s = .next t ∧
    t.pc = s.pc + 2 ∧ RegsKept s t ∧ t.rem = s.rem ∧ t.eq = s.eq ∧ ControlKept s t ∧ SinksKept s t ∧ ProgramKept s t

/-- R105: JMP, JMPF, JMPB and a taken JMPE raise JumpRange on every negative register value, with the register's pattern
as `info`. -/
def Obligations.NegativeJumpOperandFaults : Prop :=
  ∀ (s : State) (r : RegIndex), (s.reg r).toInt < 0 →
    ∀ i ∈ [Instr.jmp (regByte r), .jmpf (regByte r), .jmpb (regByte r), .jmpe (regByte r)],
      (i.opcode = .jmpe → s.eq = true) → ∃ t, exec i s = .next t ∧ FaultEntry .jumpRange (s.reg r) s t

/-- R106: each of JMP, JMPF, JMPB and a taken JMPE whose target is at or past the end of the program completes, the
engine still running with `pc` at that target, and the next step halts cleanly with EndOfProgram, `pc` unchanged; and so
does the step after any step that leaves the engine running with `pc` at or past the end. The bound on the target is no
limit on JMP and JMPE, and holds for JMPF and JMPB wherever the instruction lies inside a program no longer than PROG_MAX
(R108). -/
def Obligations.LeavingTheProgramEndsTheRun : Prop :=
  (∀ (s : State) (r : RegIndex), s.status = .running → 0 ≤ (s.reg r).toInt →
    ∀ jump ∈ [(Instr.jmp (regByte r), (s.reg r).toInt), (Instr.jmpf (regByte r), (s.pc.toNat : Int) + 2 + (s.reg r).toInt),
      (Instr.jmpb (regByte r), (s.pc.toNat : Int) + 2 - (s.reg r).toInt), (Instr.jmpe (regByte r), (s.reg r).toInt)],
      (jump.1.opcode = .jmpe → s.eq = true) → (s.prog.length : Int) ≤ jump.2 → jump.2 ≤ 4294967295 →
      ∃ t u, exec jump.1 s = .next t ∧ t.status = .running ∧ (t.pc.toNat : Int) = jump.2 ∧ step t = .next u ∧
        HaltedWith u .endOfProgram 0 ∧ u.pc = t.pc ∧ EndedWell u) ∧
  ∀ s t : State, step s = .next t → t.status = .running → s.prog.length ≤ t.pc.toNat →
    ∃ u, step t = .next u ∧ HaltedWith u .endOfProgram 0 ∧ u.pc = t.pc

/-- R110 (an inference the spec marks as its own): a JMPF and then a JMPB by the same non-negative register value leave
`pc` four bytes after where the JMPF stood: the two displacements cancel and the two fetches remain. -/
def Obligations.JmpfThenJmpbDisplacementsCancel : Prop :=
  ∀ (s : State) (r : RegIndex), s.pc.toNat + 2 ≤ Config.progMax → 0 ≤ (s.reg r).toInt →
    ∃ t u, exec (.jmpf (regByte r)) s = .next t ∧ exec (.jmpb (regByte r)) t = .next u ∧ u.pc = s.pc + 4 ∧
      u.status = s.status

/-! ### Comparisons (spec/44_compare.md) -/

/-- What R115 to R121 say of one comparison with opcode byte `b0` and predicate `p` on the signed operands. -/
def Sys2Proof.ComparisonRule (mk : Byte → Byte → Byte → Instr) (b0 : Byte) (p : Int → Int → Prop) : Prop :=
  (∀ r1 r2 pad, CommonPart (mk r1 r2 pad) [b0, r1, r2, pad]) ∧
  ∀ (s : State) (a b : RegIndex) (pad : Byte), ∃ t, exec (mk (regByte a) (regByte b) pad) s = .next t ∧
    (t.eq = true ↔ p (s.reg a).toInt (s.reg b).toInt) ∧
    RegsKept s t ∧ t.rem = s.rem ∧ t.pc = s.pc + 4 ∧ ControlKept s t ∧ SinksKept s t ∧ ProgramKept s t

/-- R115, R116: EQ and NEQ set `eq` to the equality and the inequality of their operands. -/
def Obligations.EqNeqSetFlag : Prop :=
  ComparisonRule .eq 0x09 (fun u v => u = v) ∧ ComparisonRule .neq 0x0A (fun u v => u ≠ v)

/-- R117 to R120: GT, LT, GTE and LTE set `eq` by signed order. -/
def Obligations.OrderedComparisonsSetFlag : Prop :=
  ComparisonRule .gt 0x0B (fun u v => u > v) ∧ ComparisonRule .lt 0x0C (fun u v => u < v) ∧
  ComparisonRule .gte 0x0D (fun u v => u ≥ v) ∧ ComparisonRule .lte 0x0E (fun u v => u ≤ v)

/-- R123 (an inference the spec marks as its own): the flag that each comparison leaves, in the order EQ, NEQ, GT, LT,
GTE, LTE, when the first operand is less than, equal to or greater than the second. -/
def Obligations.ComparisonOutcomeTable : Prop :=
  ∀ (s : State) (a b : RegIndex) (pad : Byte),
    ∃ flags : List Bool,
      ([Instr.eq, .neq, .gt, .lt, .gte, .lte].map fun mk => exec (mk (regByte a) (regByte b) pad) s) =
        flags.map (fun f => .next ((s.setEq f).advance 4)) ∧
      ((s.reg a).toInt < (s.reg b).toInt → flags = [false, true, false, true, false, true]) ∧
      ((s.reg a).toInt = (s.reg b).toInt → flags = [true, false, false, false, true, true]) ∧
      ((s.reg b).toInt < (s.reg a).toInt → flags = [false, true, true, false, true, false])

/-! ### Output (spec/45_output.md) -/

/-- R132, R133: PRINT sends the decimal text of its register, PRINTLN the same and one newline byte 0x0A; inside the
engine only `pc` changes. -/
def Obligations.PrintSendsDecimalText : Prop :=
  (∀ reg, CommonPart (.print reg) [0x10, reg] ∧ CommonPart (.println reg) [0x11, reg]) ∧
  ∀ (s : State) (r : RegIndex), ∃ t u,
    exec (.print (regByte r)) s = .next t ∧ t.output = s.output ++ dec (s.reg r) ∧
    exec (.println (regByte r)) s = .next u ∧ u.output = s.output ++ dec (s.reg r) ++ [0x0A] ∧
    ∀ v ∈ [t, u], v.pc = s.pc + 2 ∧ RegsKept s v ∧ v.rem = s.rem ∧ v.eq = s.eq ∧ ControlKept s v ∧
      v.diag = s.diag ∧ ProgramKept s v

/-- R131: `dec(v)` is `-` (0x2D) for a negative value and nothing otherwise, then the shortest decimal numeral of the
magnitude in ASCII digits, 1 to 11 bytes in all. The text of a negative value is the spec's decision D12. -/
def Obligations.DecIsShortestDecimal : Prop :=
  ∀ v : Word, ∃ digits : List Nat,
    dec v = (if v.toInt < 0 then [0x2D] else []) ++ digits.map (fun d => BitVec.ofNat 8 (0x30 + d)) ∧
    (∀ d ∈ digits, d ≤ 9) ∧ digits ≠ [] ∧ (digits.head? = some 0 → digits = [0]) ∧
    digits.foldl (fun n d => 10 * n + d) 0 = v.toInt.natAbs ∧
    1 ≤ (dec v).length ∧ (dec v).length ≤ 11

/-! ### What a step may change (spec/10_state.md) -/

/-- R13: a step changes at most one general register, and only the destination of a STORE, ADD, SUB, MUL or DIV that it
ran. -/
def Obligations.OnlyDestinationRegisterChanges : Prop :=
  ∀ (s t : State) (r : RegIndex), step s = .next t → t.reg r ≠ s.reg r →
    ∃ (i : Instr) (rest : List Byte), s.status = .running ∧ decode (fetchWindow s) = .ok (i, rest) ∧
      i.opcode ∈ [Opcode.store, .add, .sub, .mul, .div] ∧
      (if i.opcode = .store then i.operandBytes[0]? else i.operandBytes[2]?) = some (regByte r) ∧
      RegsKeptBut r s t

/-- R17: a step that changes `rem` ran a DIV that completed. -/
def Obligations.RemWrittenByDivOnly : Prop :=
  ∀ s t : State, step s = .next t → t.rem ≠ s.rem →
    s.status = .running ∧ t.status = .running ∧
      ∃ r1 r2 dest rest, decode (fetchWindow s) = .ok (.div r1 r2 dest, rest)

/-- R18: a step that changes `eq` ran a comparison that completed. -/
def Obligations.EqWrittenByComparisonsOnly : Prop :=
  ∀ s t : State, step s = .next t → t.eq ≠ s.eq →
    s.status = .running ∧ t.status = .running ∧ ∃ mk ∈ [Instr.eq, .neq, .gt, .lt, .gte, .lte], ∃ r1 r2 pad rest,
      decode (fetchWindow s) = .ok (mk r1 r2 pad, rest)

/-- R17, R20, R22: no step reads `rem`, `cause`, `info` or either sink: two states that differ in these alone take steps
that differ in these alone; each of the first three is either written with the same value in both or kept in both, and
what is sent to the sinks is the same. -/
def Obligations.RemCauseInfoAndSinksAreNotRead : Prop :=
  ∀ (s t t' : State) (rem info : Word) (cause : Cause) (output : List Byte) (diag : List DiagRecord),
    step s = .next t →
    step { s with rem := rem, cause := cause, info := info, output := output, diag := diag } = .next t' →
    t' = { t with rem := t'.rem, cause := t'.cause, info := t'.info, output := t'.output, diag := t'.diag } ∧
    (t'.rem = t.rem ∨ (t'.rem = rem ∧ t.rem = s.rem)) ∧
    (t'.cause = t.cause ∨ (t'.cause = cause ∧ t.cause = s.cause)) ∧
    (t'.info = t.info ∨ (t'.info = info ∧ t.info = s.info)) ∧
    (∃ sent, t.output = s.output ++ sent ∧ t'.output = output ++ sent) ∧
    ∃ sent, t.diag = s.diag ++ sent ∧ t'.diag = diag ++ sent

/-- R18, R121: `eq` is read by JMPE only: any other instruction does the same whatever `eq` is, and `eq` itself is either
written with the same value or kept; a comparison that completes always writes it. -/
def Obligations.EqReadByJmpeOnly : Prop :=
  ∀ (i : Instr) (s t : State) (b : Bool), i.opcode ≠ .jmpe → exec i s = .next t →
    ∃ t', exec i (s.setEq b) = .next t' ∧ t' = t.setEq t'.eq ∧
      (t'.eq = t.eq ∨ (t'.eq = b ∧ t.eq = s.eq)) ∧
      (i.opcode ∈ [Opcode.eq, .neq, .gt, .lt, .gte, .lte] → WellFormed i = true → t'.eq = t.eq)

/-- R130, R134: a step only appends to the output stream, and only PRINT and PRINTLN send anything to it. -/
def Obligations.OutputOnlyGrowsByPrint : Prop :=
  ∀ s t : State, step s = .next t →
    s.output <+: t.output ∧
    (t.output ≠ s.output → ∃ (i : Instr) (rest : List Byte), s.status = .running ∧
      decode (fetchWindow s) = .ok (i, rest) ∧ i.opcode ∈ [Opcode.print, .println])

/-- R72: a step sends at most one record to the diagnostic channel, and sends one only when the engine was running and
the byte at `pc` is an unmapped opcode byte; the step then ends with cause UnknownOpcode. -/
def Obligations.DiagnosticOnlyForUnknownOpcode : Prop :=
  ∀ s t : State, step s = .next t →
    t.diag = s.diag ∨ ∃ b0, s.status = .running ∧ BytesAtPc s [b0] ∧ 0x12 ≤ b0.toNat ∧
      t.diag = s.diag ++ [{ cause := .unknownOpcode, value := b0 }] ∧
      HaltedWith t .unknownOpcode (b0.setWidth Config.xlen)

/-- R32: the engine never writes the program buffer: no step changes a byte of it or its length; only RESET and
LOAD_PROGRAM do. -/
def Obligations.ProgramWrittenByHostOnly : Prop :=
  (∀ s t : State, step s = .next t → t.prog = s.prog ∧ ProgramKept s t) ∧
  ∀ (c : Command) (s t : State), applyCommand c s = .next t → t.prog ≠ s.prog →
    ∃ p, (c = .reset p ∨ c = .loadProgram p) ∧ t.prog = Memory.ofBytes p

/-! ### The program buffer (spec/20_memory.md) -/

/-- R22, R30, R36: a replaced program reads back byte for byte, and no byte is read at or past its end. -/
def Obligations.LoadedProgramReadsBack : Prop :=
  ∀ (p : List Byte) (a : Nat), (Memory.ofBytes p).read a = p[a]? ∧ (Memory.ofBytes p).length = p.length ∧
    (Memory.ofBytes p).toBytes = p

/-- The model's representation (log entry 3): two program buffers in canonical form that hold the same bytes are the same
data. -/
def Obligations.CanonicalBuffersAreEqualData : Prop :=
  ∀ m m' : Memory, m.wf = true → m'.wf = true → (∀ a, m.read a = m'.read a) → m = m'

/-! ### Reset, host commands, runs (spec/70_reset_and_hazards.md) -/

/-- R24, R172: RESET(p) gives every register 0, `pc` 0, `rem` 0, `eq` false, Running, no cause, the program `p`, and does
not touch the sinks; a program longer than PROG_MAX is refused. -/
def Obligations.ResetGivesResetValues : Prop :=
  ∀ (p : List Byte) (s : State),
    (p.length ≤ 2147483647 → ∃ t, cmdReset p s = .next t ∧ (∀ i, t.reg i = 0) ∧ t.pc = 0 ∧ t.rem = 0 ∧
      t.eq = false ∧ t.status = .running ∧ t.cause = .none ∧ t.info = 0 ∧ t.prog.length = p.length ∧
      (∀ a, t.prog.read a = p[a]?) ∧ SinksKept s t) ∧
    (2147483647 < p.length → cmdReset p s = .refused .programTooLong)

/-- R25, R173: LOAD_PROGRAM(p) takes the new program, returns `pc` to 0 and the engine to Running with no cause, and
keeps every register, `rem`, `eq` and the sinks. -/
def Obligations.LoadProgramKeepsRegisters : Prop :=
  ∀ (p : List Byte) (s : State),
    (p.length ≤ 2147483647 → ∃ t, cmdLoadProgram p s = .next t ∧ t.pc = 0 ∧ t.status = .running ∧ t.cause = .none ∧
      t.info = 0 ∧ t.prog.length = p.length ∧ (∀ a, t.prog.read a = p[a]?) ∧ RegsKept s t ∧ t.rem = s.rem ∧
      t.eq = s.eq ∧ SinksKept s t) ∧
    (2147483647 < p.length → cmdLoadProgram p s = .refused .programTooLong)

/-- R176, R182: a RUN that returns leaves the engine halted, in one state only; a RUN does not hang if and only if it
returns. -/
def Obligations.RunEndsHaltedOnce : Prop :=
  (∀ s t, RunEnds s t → t.status = .halted) ∧
  (∀ s t u, RunEnds s t → RunEnds s u → t = u) ∧
  (∀ s, Hangs s ↔ ¬ ∃ t, RunEnds s t)

/-- R176: RUN is the same as the host issuing STEP: the run from `s` ends in `t` exactly when `s` steps to a state that is
halted and equal to `t`, or to a running state from which the run ends in `t`. -/
def Obligations.RunIsStepThenRun : Prop :=
  ∀ s t : State, RunEnds s t ↔ ∃ u, step s = .next u ∧
    ((u.status = .halted ∧ u = t) ∨ (u.status = .running ∧ RunEnds u t))

/-! ### Invariants (spec/10_state.md R28) -/

/-- The invariant holds at reset. -/
def Obligations.ResetMeetsInvariant : Prop := State.reset.Inv

/-- R28: from every state that meets the invariant (halt record in agreement with the status, `pc` at most `2^32 - 2`,
program in canonical form and within PROG_MAX), every step leads to a state that meets it. -/
def Obligations.StepKeepsInvariant : Prop :=
  ∀ s t : State, s.Inv → step s = .next t → t.Inv

/-- R28: the invariant holds in every state the host can bring the engine to by RESET, LOAD_PROGRAM and STEP, in any
order and with any programs. -/
def Obligations.ReachableStatesMeetInvariant : Prop :=
  ∀ s : State, Reachable s → s.Inv

/-- R28: from every state that meets the invariant, whether or not the host can reach it, every host command that
answers a next state (RESET or LOAD_PROGRAM with any program, STEP) leads to a state that meets it. -/
def Obligations.HostCommandsKeepInvariant : Prop :=
  ∀ (c : Command) (s t : State), s.Inv → applyCommand c s = .next t → t.Inv
end

