-- ==== Sys2Proof/Laws/Decode.lean ====
section
/-! SUPPORT. The small facts about the opcode map, the operand readers and the byte order. -/

namespace Sys2Proof

@[simp] theorem opcodeOf_opmap (op : Opcode) : opcodeOf (opmap op) = some op := by cases op <;> decide

/-- The opcode read from a byte is the one the map gives that byte to. -/
theorem opcodeOf_eq_some_iff (b : Byte) (op : Opcode) : opcodeOf b = some op ↔ b = opmap op := by
  constructor
  · intro h
    have h1 := List.find?_some h
    exact (beq_iff_eq.mp h1).symm
  · rintro rfl
    exact opcodeOf_opmap op

theorem opmap_injective {op op' : Opcode} (h : opmap op = opmap op') : op = op' := by
  have h1 := opcodeOf_opmap op
  rw [h, opcodeOf_opmap] at h1
  exact (Option.some.inj h1).symm

/-- The two stream bytes of a 16-bit field give the field back. -/
@[simp] theorem imm16OfBytes_high_low (v : Imm16) : imm16OfBytes (imm16High v) (imm16Low v) = v := by
  apply BitVec.eq_of_toNat_eq
  simp only [imm16OfBytes, imm16High, imm16Low, BitVec.toNat_append, BitVec.extractLsb'_toNat]
  rw [← Nat.shiftLeft_add_eq_or_of_lt (by omega)]
  simp only [Nat.shiftLeft_eq, Nat.shiftRight_eq_div_pow]
  have := v.isLt
  omega

/-- A 16-bit field as a number: its first byte counts 256 (R33). -/
theorem toNat_imm16OfBytes (hi lo : Byte) : (imm16OfBytes hi lo).toNat = hi.toNat * 256 + lo.toNat := by
  simp only [imm16OfBytes, BitVec.toNat_append]
  rw [← Nat.shiftLeft_add_eq_or_of_lt lo.isLt]
  simp [Nat.shiftLeft_eq]

@[simp] theorem imm16High_ofBytes (hi lo : Byte) : imm16High (imm16OfBytes hi lo) = hi := by
  apply BitVec.eq_of_toNat_eq
  simp only [imm16High, BitVec.extractLsb'_toNat, toNat_imm16OfBytes, Nat.shiftRight_eq_div_pow]
  have := hi.isLt
  have := lo.isLt
  omega

@[simp] theorem imm16Low_ofBytes (hi lo : Byte) : imm16Low (imm16OfBytes hi lo) = lo := by
  apply BitVec.eq_of_toNat_eq
  simp only [imm16Low, BitVec.extractLsb'_toNat, toNat_imm16OfBytes, Nat.shiftRight_zero]
  have := lo.isLt
  omega

/-- What the one-byte operand reader answers. -/
theorem takeOne_eq_ok_iff (build : Byte → Instr) (bytes rest : List Byte) (i : Instr) :
    takeOne build bytes = .ok (i, rest) ↔ ∃ b1, bytes = b1 :: rest ∧ i = build b1 := by
  rcases bytes with _ | ⟨b1, r⟩ <;> simp [takeOne]
  grind

/-- What the three-byte operand reader answers. -/
theorem takeThree_eq_ok_iff (build : Byte → Byte → Byte → Instr) (bytes rest : List Byte) (i : Instr) :
    takeThree build bytes = .ok (i, rest) ↔ ∃ b1 b2 b3, bytes = b1 :: b2 :: b3 :: rest ∧ i = build b1 b2 b3 := by
  rcases bytes with _ | ⟨b1, _ | ⟨b2, _ | ⟨b3, r⟩⟩⟩ <;> simp [takeThree]
  grind

/-- The one-byte operand reader refuses nothing but a missing byte. -/
theorem takeOne_eq_error_iff (build : Byte → Instr) (bytes : List Byte) (e : DecodeError) :
    takeOne build bytes = .error e ↔ bytes.length < 1 ∧ e = .truncated := by
  rcases bytes with _ | ⟨b1, r⟩ <;> simp [takeOne, eq_comm]

/-- The three-byte operand reader refuses nothing but a missing byte. -/
theorem takeThree_eq_error_iff (build : Byte → Byte → Byte → Instr) (bytes : List Byte) (e : DecodeError) :
    takeThree build bytes = .error e ↔ bytes.length < 3 ∧ e = .truncated := by
  rcases bytes with _ | ⟨b1, _ | ⟨b2, _ | ⟨b3, r⟩⟩⟩ <;> simp [takeThree, eq_comm]

/-- The operand fetch fails exactly when a byte of the format is missing. -/
theorem decodeOperands_eq_error_iff (op : Opcode) (bytes : List Byte) (e : DecodeError) :
    decodeOperands op bytes = .error e ↔ bytes.length + 1 < op.format.length ∧ e = .truncated := by
  cases op <;>
    simp [decodeOperands, takeOne_eq_error_iff, takeThree_eq_error_iff, Opcode.format, Format.length] <;>
    (intro _; omega)

@[simp] theorem regByte_toNat (r : RegIndex) : (regByte r).toNat = r.val := by
  have := r.isLt
  simp only [Config.nregs] at this
  simp only [regByte, BitVec.toNat_ofNat]
  omega

end Sys2Proof
end

