-- ==== Sys2Proof/Laws/Word.lean ====
section
/-! SUPPORT. The widths as numbers, and the bounds that follow from them, in the spelling that linear arithmetic reads. -/

namespace Sys2Proof

@[simp] theorem Config.xlen_eq : Config.xlen = 32 := rfl

@[simp] theorem Config.pcw_eq : Config.pcw = 32 := rfl

theorem Word.toNat_lt (v : Word) : v.toNat < 4294967296 := v.isLt

theorem Offset.toNat_lt (a : Offset) : a.toNat < 4294967296 := a.isLt

/-- A register value read as a signed integer lies from INT_MIN to INT_MAX (spec/00_scope.md R6). -/
theorem Word.toInt_bounds (v : Word) : intMin ≤ v.toInt ∧ v.toInt ≤ intMax := by
  have h := v.toNat_lt
  simp only [BitVec.toInt_eq_toNat_cond, Config.xlen_eq, intMin, intMax]
  split <;> omega

/-- A value that is not negative reads the same signed and unsigned (R6). -/
theorem Word.toNat_eq_toInt {v : Word} (h : 0 ≤ v.toInt) : (v.toNat : Int) = v.toInt := by
  have hv := v.toNat_lt
  simp only [BitVec.toInt_eq_toNat_cond, Config.xlen_eq] at h ⊢
  split at h <;> split <;> omega

theorem Offset.toNat_add (a b : Offset) : (a + b).toNat = (a.toNat + b.toNat) % 4294967296 := BitVec.toNat_add a b

/-- A difference that does not go below 0 is exact. -/
theorem Offset.toNat_sub {a b : Offset} (h : b.toNat ≤ a.toNat) : (a - b).toNat = a.toNat - b.toNat :=
  BitVec.toNat_sub_of_le h

end Sys2Proof
end

