-- ==== Sys2Proof/Laws/Operands.lean ====
section
/-! SUPPORT. What the checked register index answers, and what a register value is as an offset. -/

namespace Sys2Proof.Machine

@[simp] theorem offsetOf_toNat (v : Word) : (offsetOf v).toNat = v.toNat := by
  simp [offsetOf]

@[simp] theorem regidx_regByte (r : RegIndex) : regidx (regByte r) = some r := by
  have h : (regByte r).toNat < Config.nregs := by simp
  simp [regidx]

/-- A register field byte names a register exactly when it is that register's byte. -/
theorem regidx_eq_some_iff (b : Byte) (r : RegIndex) : regidx b = some r ↔ b = regByte r := by
  constructor
  · intro h
    apply BitVec.eq_of_toNat_eq
    simp only [regidx] at h
    split at h
    · rw [regByte_toNat, ← Option.some.inj h]
    · cases h
  · rintro rfl
    exact regidx_regByte r

theorem regidx_eq_none_iff (b : Byte) : regidx b = none ↔ regFieldOk b = false := by
  simp [regidx, regFieldOk]

theorem regFieldOk_iff (b : Byte) : regFieldOk b = true ↔ ∃ r, b = regByte r := by
  simp only [← regidx_eq_some_iff, ← Option.isSome_iff_exists]
  rw [← Bool.not_eq_false, ← regidx_eq_none_iff, ← Option.not_isSome_iff_eq_none, not_not]

@[simp] theorem regFieldOk_regByte (r : RegIndex) : regFieldOk (regByte r) = true :=
  (regFieldOk_iff _).mpr ⟨r, rfl⟩

/-- A field that names a register goes on with it. -/
@[simp] theorem withReg_regByte (r : RegIndex) (s : State) (k : RegIndex → Result) : withReg (regByte r) s k = k r := by
  simp [withReg]

/-- A field that names no register raises RegisterIndex. -/
theorem withReg_bad {b : Byte} (h : regFieldOk b = false) (s : State) (k : RegIndex → Result) :
    withReg b s k = .next (raise .registerIndex (b.setWidth Config.xlen) s) := by
  simp [withReg, (regidx_eq_none_iff b).mpr h]

/-- Everything a register check can do. -/
theorem withReg_next {b : Byte} {s t : State} {k : RegIndex → Result} (h : withReg b s k = .next t) :
    (∃ r, b = regByte r ∧ k r = .next t) ∨
      (regFieldOk b = false ∧ t = raise .registerIndex (b.setWidth Config.xlen) s) := by
  rcases hb : regFieldOk b with _ | _
  · rw [withReg_bad hb] at h
    injection h with h
    exact .inr ⟨rfl, h.symm⟩
  · obtain ⟨r, rfl⟩ := (regFieldOk_iff b).mp hb
    exact .inl ⟨r, rfl, by simpa using h⟩

end Sys2Proof.Machine
end

