-- ==== Sys2Proof/Laws/Meanings.lean ====
section
/-! SUPPORT. Everything each shared shape, and each meaning with a shape of its own, can do: if it answers `next t`, then
one of the listed cases holds. -/

namespace Sys2Proof.Machine

/-- A fault of the register check: the first bad field of a list, in order, is recorded. -/
def BadField (fields : List Byte) (s t : State) : Prop :=
  ∃ b, fields.find? (fun b => !regFieldOk b) = some b ∧ t = raise .registerIndex (b.setWidth Config.xlen) s

theorem badField_first {b : Byte} {rest : List Byte} {s t : State} (h : regFieldOk b = false)
    (ht : t = raise .registerIndex (b.setWidth Config.xlen) s) : BadField (b :: rest) s t :=
  ⟨b, by simp [h], ht⟩

theorem BadField.skip {r : RegIndex} {rest : List Byte} {s t : State} (h : BadField rest s t) :
    BadField (regByte r :: rest) s t := by
  obtain ⟨b, hb, ht⟩ := h
  exact ⟨b, by simpa using hb, ht⟩

theorem binaryOp_next {f : Word → Word → Word} {r1 r2 dest : Byte} {s t : State}
    (h : binaryOp f r1 r2 dest s = .next t) :
    BadField [r1, r2, dest] s t ∨
    ∃ a b d, r1 = regByte a ∧ r2 = regByte b ∧ dest = regByte d ∧
      t = (s.setReg d (f (s.reg a) (s.reg b))).advance 4 := by
  obtain ⟨a, rfl, h1⟩ | ⟨hb, ht⟩ := withReg_next h
  · obtain ⟨b, rfl, h2⟩ | ⟨hb, ht⟩ := withReg_next h1
    · obtain ⟨d, rfl, h3⟩ | ⟨hb, ht⟩ := withReg_next h2
      · injection h3 with h3
        exact .inr ⟨a, b, d, rfl, rfl, rfl, h3.symm⟩
      · exact .inl (badField_first hb ht).skip.skip
    · exact .inl (badField_first hb ht).skip
  · exact .inl (badField_first hb ht)

theorem compareOp_next {p : Word → Word → Bool} {r1 r2 : Byte} {s t : State} (h : compareOp p r1 r2 s = .next t) :
    BadField [r1, r2] s t ∨
    ∃ a b, r1 = regByte a ∧ r2 = regByte b ∧ t = (s.setEq (p (s.reg a) (s.reg b))).advance 4 := by
  obtain ⟨a, rfl, h1⟩ | ⟨hb, ht⟩ := withReg_next h
  · obtain ⟨b, rfl, h2⟩ | ⟨hb, ht⟩ := withReg_next h1
    · injection h2 with h2
      exact .inr ⟨a, b, rfl, rfl, h2.symm⟩
    · exact .inl (badField_first hb ht).skip
  · exact .inl (badField_first hb ht)

theorem jumpTo_next {v : Word} {s t : State} (h : jumpTo v s = .next t) :
    (v.toInt < 0 ∧ t = raise .jumpRange v s) ∨ (0 ≤ v.toInt ∧ t = s.setPc (offsetOf v)) := by
  simp only [jumpTo, isNegative, decide_eq_true_eq] at h
  split at h <;> injection h with h
  · exact .inl ⟨by simp_all, h.symm⟩
  · exact .inr ⟨by simp_all, h.symm⟩

theorem execHlt_next {s t : State} (h : execHlt s = .next t) : t = (s.advance 1).halt .hltExecuted 0 := by
  injection h with h
  exact h.symm

theorem execStore_next {reg : Byte} {imm16 : Imm16} {s t : State} (h : execStore reg imm16 s = .next t) :
    BadField [reg] s t ∨ ∃ d, reg = regByte d ∧ t = (s.setReg d (imm16Extend imm16)).advance 4 := by
  obtain ⟨d, rfl, h1⟩ | ⟨hb, ht⟩ := withReg_next h
  · injection h1 with h1
    exact .inr ⟨d, rfl, h1.symm⟩
  · exact .inl (badField_first hb ht)

theorem execDiv_next {r1 r2 dest : Byte} {s t : State} (h : execDiv r1 r2 dest s = .next t) :
    BadField [r1, r2, dest] s t ∨
    ∃ a b d, r1 = regByte a ∧ r2 = regByte b ∧ dest = regByte d ∧
      ((s.reg b = 0 ∧ t = raise .divideByZero 0 s) ∨
       (s.reg b ≠ 0 ∧ quotientOverflows (s.reg a) (s.reg b) = true ∧ t = raise .divideOverflow 0 s) ∨
       (s.reg b ≠ 0 ∧ quotientOverflows (s.reg a) (s.reg b) = false ∧
        t = ((s.setReg d (quotientOf (s.reg a) (s.reg b))).setRem
          (remainderPattern (remainderOf (s.reg a) (s.reg b)))).advance 4)) := by
  obtain ⟨a, rfl, h1⟩ | ⟨hb, ht⟩ := withReg_next h
  · obtain ⟨b, rfl, h2⟩ | ⟨hb, ht⟩ := withReg_next h1
    · obtain ⟨d, rfl, h3⟩ | ⟨hb, ht⟩ := withReg_next h2
      · refine .inr ⟨a, b, d, rfl, rfl, rfl, ?_⟩
        split at h3
        · injection h3 with h3
          exact .inl ⟨‹_›, h3.symm⟩
        · split at h3 <;> injection h3 with h3
          · exact .inr (.inl ⟨‹_›, ‹_›, h3.symm⟩)
          · exact .inr (.inr ⟨‹_›, by simp_all, h3.symm⟩)
      · exact .inl (badField_first hb ht).skip.skip
    · exact .inl (badField_first hb ht).skip
  · exact .inl (badField_first hb ht)

theorem execJmp_next {reg : Byte} {s t : State} (h : execJmp reg s = .next t) :
    BadField [reg] s t ∨ ∃ r, reg = regByte r ∧
      (((s.reg r).toInt < 0 ∧ t = raise .jumpRange (s.reg r) s) ∨ (0 ≤ (s.reg r).toInt ∧ t = s.setPc (offsetOf (s.reg r)))) := by
  obtain ⟨r, rfl, h1⟩ | ⟨hb, ht⟩ := withReg_next h
  · exact .inr ⟨r, rfl, jumpTo_next h1⟩
  · exact .inl (badField_first hb ht)

theorem execJmpf_next {reg : Byte} {s t : State} (h : execJmpf reg s = .next t) :
    BadField [reg] s t ∨ ∃ r, reg = regByte r ∧
      (((s.reg r).toInt < 0 ∧ t = raise .jumpRange (s.reg r) s) ∨
       (0 ≤ (s.reg r).toInt ∧ t = s.setPc (jumpBase s + offsetOf (s.reg r)))) := by
  obtain ⟨r, rfl, h1⟩ | ⟨hb, ht⟩ := withReg_next h
  · refine .inr ⟨r, rfl, ?_⟩
    simp only [isNegative, decide_eq_true_eq] at h1
    split at h1 <;> injection h1 with h1
    · exact .inl ⟨by simp_all, h1.symm⟩
    · exact .inr ⟨by simp_all, h1.symm⟩
  · exact .inl (badField_first hb ht)

theorem execJmpb_next {reg : Byte} {s t : State} (h : execJmpb reg s = .next t) :
    BadField [reg] s t ∨ ∃ r, reg = regByte r ∧
      ((((s.reg r).toInt < 0 ∨ s.pc.toNat + 2 < (s.reg r).toNat) ∧ t = raise .jumpRange (s.reg r) s) ∨
       (0 ≤ (s.reg r).toInt ∧ (s.reg r).toNat ≤ s.pc.toNat + 2 ∧ t = s.setPc (jumpBase s - offsetOf (s.reg r)))) := by
  obtain ⟨r, rfl, h1⟩ | ⟨hb, ht⟩ := withReg_next h
  · refine .inr ⟨r, rfl, ?_⟩
    simp only [isNegative, decide_eq_true_eq] at h1
    split at h1
    · injection h1 with h1
      exact .inl ⟨.inl (by simp_all), h1.symm⟩
    · split at h1 <;> injection h1 with h1
      · exact .inl ⟨.inr ‹_›, h1.symm⟩
      · exact .inr ⟨by simp_all, by omega, h1.symm⟩
  · exact .inl (badField_first hb ht)

theorem execJmpe_next {reg : Byte} {s t : State} (h : execJmpe reg s = .next t) :
    BadField [reg] s t ∨ ∃ r, reg = regByte r ∧
      ((s.eq = true ∧ (s.reg r).toInt < 0 ∧ t = raise .jumpRange (s.reg r) s) ∨
       (s.eq = true ∧ 0 ≤ (s.reg r).toInt ∧ t = s.setPc (offsetOf (s.reg r))) ∨
       (s.eq = false ∧ t = s.advance 2)) := by
  obtain ⟨r, rfl, h1⟩ | ⟨hb, ht⟩ := withReg_next h
  · refine .inr ⟨r, rfl, ?_⟩
    split at h1
    · obtain ⟨h3, h4⟩ | ⟨h3, h4⟩ := jumpTo_next h1
      · exact .inl ⟨‹_›, h3, h4⟩
      · exact .inr (.inl ⟨‹_›, h3, h4⟩)
    · injection h1 with h1
      exact .inr (.inr ⟨by simp_all, h1.symm⟩)
  · exact .inl (badField_first hb ht)

theorem execPrint_next {reg : Byte} {s t : State} (h : execPrint reg s = .next t) :
    BadField [reg] s t ∨ ∃ r, reg = regByte r ∧ t = (s.emit (dec (s.reg r))).advance 2 := by
  obtain ⟨r, rfl, h1⟩ | ⟨hb, ht⟩ := withReg_next h
  · injection h1 with h1
    exact .inr ⟨r, rfl, h1.symm⟩
  · exact .inl (badField_first hb ht)

theorem execPrintln_next {reg : Byte} {s t : State} (h : execPrintln reg s = .next t) :
    BadField [reg] s t ∨ ∃ r, reg = regByte r ∧ t = (s.emit (dec (s.reg r) ++ [newlineByte])).advance 2 := by
  obtain ⟨r, rfl, h1⟩ | ⟨hb, ht⟩ := withReg_next h
  · injection h1 with h1
    exact .inr ⟨r, rfl, h1.symm⟩
  · exact .inl (badField_first hb ht)

end Sys2Proof.Machine
end

