-- ==== Sys2Proof/Laws/Exec.lean ====
section
/-! SUPPORT. Everything `exec` can do, in one case list over all the instructions: what a proof about every instruction
splits on. The result cases carry the shape of the next state; the exact value is in the meaning's own lemma of
Laws/Meanings.lean. -/

namespace Sys2Proof.Machine

/-- The register field that an instruction writes to, for those that write one (spec/10_state.md R13). -/
def destField (i : Instr) : Option Byte :=
  if i.opcode = .store then i.operandBytes[0]? else i.operandBytes[2]?

/-- The next state of an instruction, by kind of effect. -/
inductive ExecCase (i : Instr) (s : State) : State → Prop where
  | badField (b : Byte) (hb : firstBadField i = some b) : ExecCase i s (raise .registerIndex (b.setWidth Config.xlen) s)
  | divFault (c : Cause) (hw : WellFormed i = true) (ho : i.opcode = .div)
      (hc : c = .divideByZero ∨ c = .divideOverflow) : ExecCase i s (raise c 0 s)
  | jumpFault (v : Word) (hw : WellFormed i = true)
      (ho : i.opcode ∈ [Opcode.jmp, .jmpf, .jmpb] ∨ (i.opcode = .jmpe ∧ s.eq = true)) :
      ExecCase i s (raise .jumpRange v s)
  | halts (ho : i.opcode = .hlt) : ExecCase i s ((s.advance 1).halt .hltExecuted 0)
  | writesReg (d : RegIndex) (v : Word) (hw : WellFormed i = true) (ho : i.opcode ∈ [Opcode.store, .add, .sub, .mul])
      (hd : destField i = some (regByte d)) : ExecCase i s ((s.setReg d v).advance 4)
  | divides (d : RegIndex) (q r : Word) (hw : WellFormed i = true) (ho : i.opcode = .div)
      (hd : destField i = some (regByte d)) : ExecCase i s (((s.setReg d q).setRem r).advance 4)
  | compares (f : Bool) (hw : WellFormed i = true) (ho : i.opcode ∈ [Opcode.eq, .neq, .gt, .lt, .gte, .lte]) :
      ExecCase i s ((s.setEq f).advance 4)
  | jumpsTo (v : Word) (hw : WellFormed i = true) (ho : i.opcode ∈ [Opcode.jmp, .jmpe]) (hv : 0 ≤ v.toInt) :
      ExecCase i s (s.setPc (offsetOf v))
  | jumpsForward (v : Word) (hw : WellFormed i = true) (ho : i.opcode = .jmpf) (hv : 0 ≤ v.toInt) :
      ExecCase i s (s.setPc (jumpBase s + offsetOf v))
  | jumpsBackward (v : Word) (hw : WellFormed i = true) (ho : i.opcode = .jmpb) (hv : 0 ≤ v.toInt)
      (hle : v.toNat ≤ s.pc.toNat + 2) : ExecCase i s (s.setPc (jumpBase s - offsetOf v))
  | fallsThrough (hw : WellFormed i = true) (ho : i.opcode = .jmpe) : ExecCase i s (s.advance 2)
  | prints (bytes : List Byte) (hw : WellFormed i = true) (ho : i.opcode ∈ [Opcode.print, .println]) :
      ExecCase i s ((s.emit bytes).advance 2)

theorem ExecCase.of_badField {i : Instr} {s t : State} {fields : List Byte} (hf : i.regFields = fields)
    (h : BadField fields s t) : ExecCase i s t := by
  obtain ⟨b, hb, rfl⟩ := h
  exact .badField b (by rw [firstBadField, hf]; exact hb)

theorem execCase_binaryOp {i : Instr} {f : Word → Word → Word} {r1 r2 dest : Byte} {s t : State}
    (hf : i.regFields = [r1, r2, dest]) (ho : i.opcode ∈ [Opcode.store, .add, .sub, .mul])
    (hd : destField i = some dest) (h : binaryOp f r1 r2 dest s = .next t) : ExecCase i s t := by
  obtain hb | ⟨a, b, d, rfl, rfl, rfl, rfl⟩ := binaryOp_next h
  · exact .of_badField hf hb
  · exact .writesReg d _ (by simp [WellFormed, hf]) ho hd

theorem execCase_compareOp {i : Instr} {p : Word → Word → Bool} {r1 r2 : Byte} {s t : State}
    (hf : i.regFields = [r1, r2]) (ho : i.opcode ∈ [Opcode.eq, .neq, .gt, .lt, .gte, .lte])
    (h : compareOp p r1 r2 s = .next t) : ExecCase i s t := by
  obtain hb | ⟨a, b, rfl, rfl, rfl⟩ := compareOp_next h
  · exact .of_badField hf hb
  · exact .compares _ (by simp [WellFormed, hf]) ho

/-- Everything an instruction can do. -/
theorem exec_next {i : Instr} {s t : State} (h : exec i s = .next t) : ExecCase i s t := by
  cases i with
  | hlt => exact execHlt_next h ▸ .halts rfl
  | store reg imm16 =>
    obtain hb | ⟨d, rfl, rfl⟩ := execStore_next h
    · exact .of_badField rfl hb
    · exact .writesReg d _ (by simp [WellFormed, Instr.regFields]) (by simp [Instr.opcode]) rfl
  | add r1 r2 dest => exact execCase_binaryOp rfl (by simp [Instr.opcode]) rfl h
  | sub r1 r2 dest => exact execCase_binaryOp rfl (by simp [Instr.opcode]) rfl h
  | mul r1 r2 dest => exact execCase_binaryOp rfl (by simp [Instr.opcode]) rfl h
  | div r1 r2 dest =>
    obtain hb | ⟨a, b, d, rfl, rfl, rfl, ⟨_, rfl⟩ | ⟨_, _, rfl⟩ | ⟨_, _, rfl⟩⟩ := execDiv_next h
    · exact .of_badField rfl hb
    · exact .divFault _ (by simp [WellFormed, Instr.regFields]) rfl (.inl rfl)
    · exact .divFault _ (by simp [WellFormed, Instr.regFields]) rfl (.inr rfl)
    · exact .divides d _ _ (by simp [WellFormed, Instr.regFields]) rfl rfl
  | jmp reg =>
    obtain hb | ⟨r, rfl, ⟨_, rfl⟩ | ⟨hv, rfl⟩⟩ := execJmp_next h
    · exact .of_badField rfl hb
    · exact .jumpFault _ (by simp [WellFormed, Instr.regFields]) (by simp [Instr.opcode])
    · exact .jumpsTo _ (by simp [WellFormed, Instr.regFields]) (by simp [Instr.opcode]) hv
  | jmpf reg =>
    obtain hb | ⟨r, rfl, ⟨_, rfl⟩ | ⟨hv, rfl⟩⟩ := execJmpf_next h
    · exact .of_badField rfl hb
    · exact .jumpFault _ (by simp [WellFormed, Instr.regFields]) (by simp [Instr.opcode])
    · exact .jumpsForward _ (by simp [WellFormed, Instr.regFields]) rfl hv
  | jmpb reg =>
    obtain hb | ⟨r, rfl, ⟨_, rfl⟩ | ⟨hv, hle, rfl⟩⟩ := execJmpb_next h
    · exact .of_badField rfl hb
    · exact .jumpFault _ (by simp [WellFormed, Instr.regFields]) (by simp [Instr.opcode])
    · exact .jumpsBackward _ (by simp [WellFormed, Instr.regFields]) rfl hv hle
  | eq r1 r2 pad => exact execCase_compareOp rfl (by simp [Instr.opcode]) h
  | neq r1 r2 pad => exact execCase_compareOp rfl (by simp [Instr.opcode]) h
  | gt r1 r2 pad => exact execCase_compareOp rfl (by simp [Instr.opcode]) h
  | lt r1 r2 pad => exact execCase_compareOp rfl (by simp [Instr.opcode]) h
  | gte r1 r2 pad => exact execCase_compareOp rfl (by simp [Instr.opcode]) h
  | lte r1 r2 pad => exact execCase_compareOp rfl (by simp [Instr.opcode]) h
  | jmpe reg =>
    obtain hb | ⟨r, rfl, ⟨he, _, rfl⟩ | ⟨_, hv, rfl⟩ | ⟨_, rfl⟩⟩ := execJmpe_next h
    · exact .of_badField rfl hb
    · exact .jumpFault _ (by simp [WellFormed, Instr.regFields]) (.inr ⟨rfl, he⟩)
    · exact .jumpsTo _ (by simp [WellFormed, Instr.regFields]) (by simp [Instr.opcode]) hv
    · exact .fallsThrough (by simp [WellFormed, Instr.regFields]) rfl
  | print reg =>
    obtain hb | ⟨r, rfl, rfl⟩ := execPrint_next h
    · exact .of_badField rfl hb
    · exact .prints _ (by simp [WellFormed, Instr.regFields]) (by simp [Instr.opcode])
  | println reg =>
    obtain hb | ⟨r, rfl, rfl⟩ := execPrintln_next h
    · exact .of_badField rfl hb
    · exact .prints _ (by simp [WellFormed, Instr.regFields]) (by simp [Instr.opcode])

/-- A taken fault leaves what R147 says (spec/60_exceptions.md). -/
theorem faultEntry_raise (c : Cause) (i : Word) (s : State) : FaultEntry c i s (raise c i s) :=
  ⟨fun _ => rfl, rfl, rfl, rfl, ⟨rfl, rfl⟩, ⟨rfl, fun _ => rfl⟩, rfl, rfl, rfl⟩

end Sys2Proof.Machine
end

