-- ==== Sys2Proof/Laws/Memory.lean ====
section
/-! SUPPORT. What the operations of the program buffer do to what it reads as, and that each keeps its canonical form. -/

namespace Sys2Proof.Machine

theorem cellsOk_cons (lo hi a : Nat) (v : Byte) (rest : List Host.Cell) :
    cellsOk lo hi ((a, v) :: rest) = true ↔
      lo ≤ a ∧ a < hi ∧ v ≠ Memory.unlisted ∧ cellsOk (a + 1) hi rest = true := by
  simp [cellsOk, and_assoc]

/-- Canonical cells stay canonical in a wider range. -/
theorem cellsOk_mono {lo hi lo' hi' : Nat} {cs : List Host.Cell} (h : cellsOk lo hi cs = true)
    (hlo : lo' ≤ lo) (hhi : hi ≤ hi') : cellsOk lo' hi' cs = true := by
  induction cs generalizing lo lo' with
  | nil => rfl
  | cons c rest ih =>
    obtain ⟨a, v⟩ := c
    obtain ⟨h1, h2, h3, h4⟩ := (cellsOk_cons ..).mp h
    exact (cellsOk_cons ..).mpr ⟨by omega, by omega, h3, ih h4 le_rfl⟩

/-- Canonical cells list nothing below their range. -/
theorem lookupCell_below {lo hi a : Nat} {cs : List Host.Cell} (h : cellsOk lo hi cs = true) (ha : a < lo) :
    lookupCell cs a = Memory.unlisted := by
  induction cs generalizing lo with
  | nil => rfl
  | cons c rest ih =>
    obtain ⟨b, v⟩ := c
    obtain ⟨h1, _, _, h4⟩ := (cellsOk_cons ..).mp h
    simp only [lookupCell, if_neg (show a ≠ b by omega)]
    exact ih h4 (by omega)

/-- Canonical cells list nothing above their range. -/
theorem lookupCell_above {lo hi a : Nat} {cs : List Host.Cell} (h : cellsOk lo hi cs = true) (ha : hi ≤ a) :
    lookupCell cs a = Memory.unlisted := by
  induction cs generalizing lo with
  | nil => rfl
  | cons c rest ih =>
    obtain ⟨b, v⟩ := c
    obtain ⟨_, h2, _, h4⟩ := (cellsOk_cons ..).mp h
    simp only [lookupCell, if_neg (show a ≠ b by omega)]
    exact ih h4

/-- What a written cell list gives each address. -/
theorem lookupCell_putCell {lo hi : Nat} {cs : List Host.Cell} (h : cellsOk lo hi cs = true) (a a' : Nat) (b : Byte) :
    lookupCell (putCell a b cs) a' = if a' = a then b else lookupCell cs a' := by
  induction cs generalizing lo with
  | nil =>
    by_cases hb : b = Memory.unlisted <;> simp [putCell, hb, lookupCell]
  | cons c rest ih =>
    obtain ⟨k, v⟩ := c
    obtain ⟨h1, h2, h3, h4⟩ := (cellsOk_cons ..).mp h
    have hk : lookupCell rest k = Memory.unlisted := lookupCell_below h4 (by omega)
    rcases lt_trichotomy a k with hak | hak | hak
    · have ha : lookupCell rest a = Memory.unlisted := lookupCell_below h4 (by omega)
      by_cases hb : b = Memory.unlisted
      · by_cases haa : a' = a
        · simp [putCell, hak, hb, haa, lookupCell, hak.ne, ha]
        · simp [putCell, hak, hb, haa]
      · simp [putCell, hak, hb, lookupCell]
    · subst hak
      by_cases hb : b = Memory.unlisted
      · by_cases haa : a' = a
        · simp [putCell, hb, haa, hk]
        · simp [putCell, hb, haa, lookupCell]
      · by_cases haa : a' = a <;> simp [putCell, hb, lookupCell, haa]
    · have h5 : ¬ a < k := by omega
      have h6 : a ≠ k := by omega
      by_cases hkk : a' = k
      · have : k ≠ a := by omega
        simp [putCell, h5, h6, lookupCell, hkk, this]
      · simp [putCell, h5, h6, lookupCell, hkk, ih h4]

/-- Writing a cell keeps the canonical form. -/
theorem cellsOk_putCell {lo hi hi' a : Nat} {b : Byte} {cs : List Host.Cell} (h : cellsOk lo hi cs = true)
    (hlo : lo ≤ a) (ha : a < hi') (hhi : hi ≤ hi') : cellsOk lo hi' (putCell a b cs) = true := by
  induction cs generalizing lo with
  | nil =>
    by_cases hb : b = Memory.unlisted <;> simp [putCell, hb, cellsOk, hlo, ha]
  | cons c rest ih =>
    obtain ⟨k, v⟩ := c
    obtain ⟨h1, h2, h3, h4⟩ := (cellsOk_cons ..).mp h
    rcases lt_trichotomy a k with hak | hak | hak
    · have h5 : cellsOk (k + 1) hi' rest = true := cellsOk_mono h4 le_rfl hhi
      by_cases hb : b = Memory.unlisted
      · simp only [putCell, if_pos hak, if_pos hb]
        exact (cellsOk_cons ..).mpr ⟨h1, by omega, h3, h5⟩
      · simp only [putCell, if_pos hak, if_neg hb]
        exact (cellsOk_cons ..).mpr ⟨hlo, ha, hb, (cellsOk_cons ..).mpr ⟨hak, by omega, h3, h5⟩⟩
    · subst hak
      have h5 : cellsOk (a + 1) hi' rest = true := cellsOk_mono h4 le_rfl hhi
      by_cases hb : b = Memory.unlisted
      · simp only [putCell, lt_irrefl, if_false, if_true, if_pos hb]
        exact cellsOk_mono h5 (by omega) le_rfl
      · simp only [putCell, lt_irrefl, if_false, if_true, if_neg hb]
        exact (cellsOk_cons ..).mpr ⟨h1, ha, hb, h5⟩
    · simp only [putCell, if_neg (show ¬ a < k by omega), if_neg (show a ≠ k by omega)]
      exact (cellsOk_cons ..).mpr ⟨h1, by omega, h3, ih h4 (by omega)⟩

/-- The cells of consecutive bytes are canonical. -/
theorem cellsOk_cellsFrom (lo : Nat) (p : List Byte) : cellsOk lo (lo + p.length) (cellsFrom lo p) = true := by
  induction p generalizing lo with
  | nil => rfl
  | cons b rest ih =>
    have h := ih (lo + 1)
    rw [show lo + 1 + rest.length = lo + (b :: rest).length by simp; omega] at h
    by_cases hb : b = Memory.unlisted
    · simpa only [cellsFrom, if_pos hb] using cellsOk_mono h (by omega) le_rfl
    · simp only [cellsFrom, if_neg hb]
      exact (cellsOk_cons ..).mpr ⟨le_rfl, by simp, hb, h⟩

theorem Memory.wf_iff (m : Memory) :
    m.wf = true ↔ cellsOk 0 m.length m.cells = true ∧ m.length ≤ Config.progMax := by
  simp [Memory.wf]

theorem Memory.wf_empty : Memory.empty.wf = true := rfl

/-- A write inside PROG_MAX keeps the canonical form and the bound. -/
theorem Memory.wf_write {m : Memory} (h : m.wf = true) (a : Nat) (b : Byte) (ha : a < Config.progMax) :
    (m.write a b).wf = true := by
  obtain ⟨h1, h2⟩ := m.wf_iff.mp h
  refine (Memory.wf_iff _).mpr ⟨cellsOk_putCell h1 (Nat.zero_le _) ?_ ?_, ?_⟩ <;> simp only [Memory.write] <;> omega

theorem Memory.wf_writeBytes {m : Memory} (h : m.wf = true) (a : Nat) (p : List Byte)
    (ha : a + p.length ≤ Config.progMax) : (m.writeBytes a p).wf = true := by
  induction p generalizing m a with
  | nil => exact h
  | cons b rest ih =>
    simp only [List.length_cons] at ha
    exact ih (Memory.wf_write h a b (by omega)) (a + 1) (by omega)

/-- A loaded program is in canonical form. -/
theorem Memory.wf_ofBytes {p : List Byte} (h : p.length ≤ Config.progMax) : (Memory.ofBytes p).wf = true := by
  refine (Memory.wf_iff _).mpr ⟨?_, h⟩
  simpa [Memory.ofBytes] using cellsOk_cellsFrom 0 p

theorem Memory.read_eq_none_iff (m : Memory) (a : Nat) : m.read a = none ↔ m.length ≤ a := by
  simp [Memory.read]

theorem Memory.read_of_lt {m : Memory} {a : Nat} (h : a < m.length) : m.read a = some (lookupCell m.cells a) := by
  simp [Memory.read, h]

/-- A read after a write: the written address gives the byte, every other address below the old length reads as before,
and the addresses that the buffer grew over read 0x00. -/
theorem Memory.read_write {m : Memory} (h : m.wf = true) (a a' : Nat) (b : Byte) :
    (m.write a b).read a' =
      if a' = a then some b else if a' < m.length then m.read a' else if a' < a then some 0 else none := by
  obtain ⟨h1, _⟩ := m.wf_iff.mp h
  simp only [Memory.read, Memory.write, lookupCell_putCell h1]
  by_cases haa : a' = a
  · simp [haa]
  · by_cases h2 : a' < m.length
    · simp [haa, h2]
    · have h3 := lookupCell_above h1 (show m.length ≤ a' by omega)
      by_cases h4 : a' < a
      · simp [haa, h2, h4, h3, Memory.unlisted, show a' < a + 1 by omega]
      · simp [haa, h2, h4, show ¬ a' < a + 1 by omega]

/-- What the cells of consecutive bytes give each address. -/
theorem lookupCell_cellsFrom (lo a : Nat) (p : List Byte) (h : lo ≤ a) :
    lookupCell (cellsFrom lo p) a = p.getD (a - lo) Memory.unlisted := by
  induction p generalizing lo with
  | nil => simp [cellsFrom, lookupCell]
  | cons b rest ih =>
    rcases h.eq_or_lt with hlo | hlo
    · subst hlo
      by_cases hb : b = Memory.unlisted
      · simp [cellsFrom, hb, lookupCell_below (cellsOk_cellsFrom (lo + 1) rest) (Nat.lt_succ_self lo)]
      · simp [cellsFrom, hb, lookupCell]
    · have h1 : a - lo = (a - (lo + 1)) + 1 := by omega
      rw [h1, List.getD_cons_succ, ← ih (lo + 1) hlo]
      by_cases hb : b = Memory.unlisted
      · simp [cellsFrom, hb]
      · simp [cellsFrom, hb, lookupCell, show a ≠ lo by omega]

@[simp] theorem Memory.fetch_zero (m : Memory) (a : Nat) : m.fetch a 0 = [] := rfl

theorem Memory.fetch_succ (m : Memory) (a n : Nat) :
    m.fetch a (n + 1) = match m.read a with
      | none => []
      | some b => b :: m.fetch (a + 1) n := rfl

/-- A fetch finds nothing exactly when it starts at or past the end. -/
theorem Memory.fetch_eq_nil_iff (m : Memory) (a n : Nat) : m.fetch a (n + 1) = [] ↔ m.length ≤ a := by
  rw [Memory.fetch_succ, ← m.read_eq_none_iff]
  cases m.read a <;> simp

/-- How many bytes a fetch finds. -/
theorem Memory.length_fetch (m : Memory) (a n : Nat) : (m.fetch a n).length = min n (m.length - a) := by
  induction n generalizing a with
  | zero => simp
  | succ n ih =>
    rw [Memory.fetch_succ]
    by_cases h : a < m.length
    · rw [Memory.read_of_lt h]
      simp only [List.length_cons, ih]
      omega
    · rw [(m.read_eq_none_iff a).mpr (by omega)]
      simp only [List.length_nil]
      omega

/-- The bytes a fetch finds are the buffer's, in order. -/
theorem Memory.getElem?_fetch (m : Memory) (a n k : Nat) (h : k < n) : (m.fetch a n)[k]? = m.read (a + k) := by
  induction n generalizing a k with
  | zero => omega
  | succ n ih =>
    rw [Memory.fetch_succ]
    by_cases ha : a < m.length
    · rw [Memory.read_of_lt ha]
      cases k with
      | zero => simp [Memory.read_of_lt ha]
      | succ k => simp only [List.getElem?_cons_succ, ih (a + 1) k (by omega), Nat.add_assoc, Nat.add_comm 1 k]
    · rw [(m.read_eq_none_iff a).mpr (by omega), (m.read_eq_none_iff _).mpr (by omega)]
      simp

end Sys2Proof.Machine
end

