-- ==== Sys2Proof/Laws/PerInstr.lean ====
section
/-! SUPPORT. Facts stated per instruction, one lemma per constructor of Instr. -/

namespace Sys2Proof.Laws

/-- The bytes of an instruction are as many as its opcode's format says (spec/30_encoding.md R46, R55). -/
def EncodeLength.Statement (i : Instr) : Prop := (encode i).length = i.length

theorem EncodeLength.hlt : EncodeLength.Statement .hlt := rfl
theorem EncodeLength.store (reg : Byte) (imm16 : Imm16) : EncodeLength.Statement (.store reg imm16) := rfl
theorem EncodeLength.add (r1 r2 dest : Byte) : EncodeLength.Statement (.add r1 r2 dest) := rfl
theorem EncodeLength.sub (r1 r2 dest : Byte) : EncodeLength.Statement (.sub r1 r2 dest) := rfl
theorem EncodeLength.mul (r1 r2 dest : Byte) : EncodeLength.Statement (.mul r1 r2 dest) := rfl
theorem EncodeLength.div (r1 r2 dest : Byte) : EncodeLength.Statement (.div r1 r2 dest) := rfl
theorem EncodeLength.jmp (reg : Byte) : EncodeLength.Statement (.jmp reg) := rfl
theorem EncodeLength.jmpf (reg : Byte) : EncodeLength.Statement (.jmpf reg) := rfl
theorem EncodeLength.jmpb (reg : Byte) : EncodeLength.Statement (.jmpb reg) := rfl
theorem EncodeLength.eq (r1 r2 pad : Byte) : EncodeLength.Statement (.eq r1 r2 pad) := rfl
theorem EncodeLength.neq (r1 r2 pad : Byte) : EncodeLength.Statement (.neq r1 r2 pad) := rfl
theorem EncodeLength.gt (r1 r2 pad : Byte) : EncodeLength.Statement (.gt r1 r2 pad) := rfl
theorem EncodeLength.lt (r1 r2 pad : Byte) : EncodeLength.Statement (.lt r1 r2 pad) := rfl
theorem EncodeLength.gte (r1 r2 pad : Byte) : EncodeLength.Statement (.gte r1 r2 pad) := rfl
theorem EncodeLength.lte (r1 r2 pad : Byte) : EncodeLength.Statement (.lte r1 r2 pad) := rfl
theorem EncodeLength.jmpe (reg : Byte) : EncodeLength.Statement (.jmpe reg) := rfl
theorem EncodeLength.print (reg : Byte) : EncodeLength.Statement (.print reg) := rfl
theorem EncodeLength.println (reg : Byte) : EncodeLength.Statement (.println reg) := rfl

end Sys2Proof.Laws
end

