-- ==== Sys2Proof/Laws/State.lean ====
section
/-! SUPPORT. What each update of the state does to each field, and to each register: the simp set over State. -/

namespace Sys2Proof.Machine

variable (s : State)

/-! ### Registers after an update -/

theorem State.reg_setReg (i j : RegIndex) (v : Word) :
    (s.setReg i v).reg j = if j = i then v else s.reg j := by
  simp only [State.reg, State.setReg, Fin.getElem_fin, Vector.getElem_set, Fin.ext_iff, eq_comm]

@[simp] theorem State.reg_setReg_same (i : RegIndex) (v : Word) : (s.setReg i v).reg i = v := by
  simp [State.reg_setReg]

theorem State.reg_setReg_other (i j : RegIndex) (v : Word) (h : j ≠ i) : (s.setReg i v).reg j = s.reg j := by
  simp [State.reg_setReg, h]

/-- Two states with the same registers have the same register file. -/
theorem State.x_eq_of_reg (t : State) (h : ∀ i, t.reg i = s.reg i) : t.x = s.x :=
  Vector.ext fun i hi => h ⟨i, hi⟩

@[simp] theorem State.reg_reset (i : RegIndex) : State.reset.reg i = 0 := by
  simp [State.reg, State.reset]

/-! ### setReg -/

@[simp] theorem State.x_setReg (i : RegIndex) (v : Word) : (s.setReg i v).x = s.x.set i v := rfl
@[simp] theorem State.pc_setReg (i : RegIndex) (v : Word) : (s.setReg i v).pc = s.pc := rfl
@[simp] theorem State.rem_setReg (i : RegIndex) (v : Word) : (s.setReg i v).rem = s.rem := rfl
@[simp] theorem State.eq_setReg (i : RegIndex) (v : Word) : (s.setReg i v).eq = s.eq := rfl
@[simp] theorem State.status_setReg (i : RegIndex) (v : Word) : (s.setReg i v).status = s.status := rfl
@[simp] theorem State.cause_setReg (i : RegIndex) (v : Word) : (s.setReg i v).cause = s.cause := rfl
@[simp] theorem State.info_setReg (i : RegIndex) (v : Word) : (s.setReg i v).info = s.info := rfl
@[simp] theorem State.prog_setReg (i : RegIndex) (v : Word) : (s.setReg i v).prog = s.prog := rfl
@[simp] theorem State.output_setReg (i : RegIndex) (v : Word) : (s.setReg i v).output = s.output := rfl
@[simp] theorem State.diag_setReg (i : RegIndex) (v : Word) : (s.setReg i v).diag = s.diag := rfl

/-! ### setRem -/

@[simp] theorem State.x_setRem (v : Word) : (s.setRem v).x = s.x := rfl
@[simp] theorem State.pc_setRem (v : Word) : (s.setRem v).pc = s.pc := rfl
@[simp] theorem State.rem_setRem (v : Word) : (s.setRem v).rem = v := rfl
@[simp] theorem State.eq_setRem (v : Word) : (s.setRem v).eq = s.eq := rfl
@[simp] theorem State.status_setRem (v : Word) : (s.setRem v).status = s.status := rfl
@[simp] theorem State.cause_setRem (v : Word) : (s.setRem v).cause = s.cause := rfl
@[simp] theorem State.info_setRem (v : Word) : (s.setRem v).info = s.info := rfl
@[simp] theorem State.prog_setRem (v : Word) : (s.setRem v).prog = s.prog := rfl
@[simp] theorem State.output_setRem (v : Word) : (s.setRem v).output = s.output := rfl
@[simp] theorem State.diag_setRem (v : Word) : (s.setRem v).diag = s.diag := rfl
@[simp] theorem State.reg_setRem (j : RegIndex) (v : Word) : (s.setRem v).reg j = s.reg j := rfl

/-! ### setEq -/

@[simp] theorem State.x_setEq (b : Bool) : (s.setEq b).x = s.x := rfl
@[simp] theorem State.pc_setEq (b : Bool) : (s.setEq b).pc = s.pc := rfl
@[simp] theorem State.rem_setEq (b : Bool) : (s.setEq b).rem = s.rem := rfl
@[simp] theorem State.eq_setEq (b : Bool) : (s.setEq b).eq = b := rfl
@[simp] theorem State.status_setEq (b : Bool) : (s.setEq b).status = s.status := rfl
@[simp] theorem State.cause_setEq (b : Bool) : (s.setEq b).cause = s.cause := rfl
@[simp] theorem State.info_setEq (b : Bool) : (s.setEq b).info = s.info := rfl
@[simp] theorem State.prog_setEq (b : Bool) : (s.setEq b).prog = s.prog := rfl
@[simp] theorem State.output_setEq (b : Bool) : (s.setEq b).output = s.output := rfl
@[simp] theorem State.diag_setEq (b : Bool) : (s.setEq b).diag = s.diag := rfl
@[simp] theorem State.reg_setEq (j : RegIndex) (b : Bool) : (s.setEq b).reg j = s.reg j := rfl

/-! ### setPc -/

@[simp] theorem State.x_setPc (t : Offset) : (s.setPc t).x = s.x := rfl
@[simp] theorem State.pc_setPc (t : Offset) : (s.setPc t).pc = t := rfl
@[simp] theorem State.rem_setPc (t : Offset) : (s.setPc t).rem = s.rem := rfl
@[simp] theorem State.eq_setPc (t : Offset) : (s.setPc t).eq = s.eq := rfl
@[simp] theorem State.status_setPc (t : Offset) : (s.setPc t).status = s.status := rfl
@[simp] theorem State.cause_setPc (t : Offset) : (s.setPc t).cause = s.cause := rfl
@[simp] theorem State.info_setPc (t : Offset) : (s.setPc t).info = s.info := rfl
@[simp] theorem State.prog_setPc (t : Offset) : (s.setPc t).prog = s.prog := rfl
@[simp] theorem State.output_setPc (t : Offset) : (s.setPc t).output = s.output := rfl
@[simp] theorem State.diag_setPc (t : Offset) : (s.setPc t).diag = s.diag := rfl
@[simp] theorem State.reg_setPc (j : RegIndex) (t : Offset) : (s.setPc t).reg j = s.reg j := rfl

/-! ### advance -/

@[simp] theorem State.x_advance (n : Offset) : (s.advance n).x = s.x := rfl
@[simp] theorem State.pc_advance (n : Offset) : (s.advance n).pc = s.pc + n := rfl
@[simp] theorem State.rem_advance (n : Offset) : (s.advance n).rem = s.rem := rfl
@[simp] theorem State.eq_advance (n : Offset) : (s.advance n).eq = s.eq := rfl
@[simp] theorem State.status_advance (n : Offset) : (s.advance n).status = s.status := rfl
@[simp] theorem State.cause_advance (n : Offset) : (s.advance n).cause = s.cause := rfl
@[simp] theorem State.info_advance (n : Offset) : (s.advance n).info = s.info := rfl
@[simp] theorem State.prog_advance (n : Offset) : (s.advance n).prog = s.prog := rfl
@[simp] theorem State.output_advance (n : Offset) : (s.advance n).output = s.output := rfl
@[simp] theorem State.diag_advance (n : Offset) : (s.advance n).diag = s.diag := rfl
@[simp] theorem State.reg_advance (j : RegIndex) (n : Offset) : (s.advance n).reg j = s.reg j := rfl

/-! ### halt -/

@[simp] theorem State.x_halt (c : Cause) (i : Word) : (s.halt c i).x = s.x := rfl
@[simp] theorem State.pc_halt (c : Cause) (i : Word) : (s.halt c i).pc = s.pc := rfl
@[simp] theorem State.rem_halt (c : Cause) (i : Word) : (s.halt c i).rem = s.rem := rfl
@[simp] theorem State.eq_halt (c : Cause) (i : Word) : (s.halt c i).eq = s.eq := rfl
@[simp] theorem State.status_halt (c : Cause) (i : Word) : (s.halt c i).status = .halted := rfl
@[simp] theorem State.cause_halt (c : Cause) (i : Word) : (s.halt c i).cause = c := rfl
@[simp] theorem State.info_halt (c : Cause) (i : Word) : (s.halt c i).info = i := rfl
@[simp] theorem State.prog_halt (c : Cause) (i : Word) : (s.halt c i).prog = s.prog := rfl
@[simp] theorem State.output_halt (c : Cause) (i : Word) : (s.halt c i).output = s.output := rfl
@[simp] theorem State.diag_halt (c : Cause) (i : Word) : (s.halt c i).diag = s.diag := rfl
@[simp] theorem State.reg_halt (j : RegIndex) (c : Cause) (i : Word) : (s.halt c i).reg j = s.reg j := rfl

/-! ### emit -/

@[simp] theorem State.x_emit (bytes : List Byte) : (s.emit bytes).x = s.x := rfl
@[simp] theorem State.pc_emit (bytes : List Byte) : (s.emit bytes).pc = s.pc := rfl
@[simp] theorem State.rem_emit (bytes : List Byte) : (s.emit bytes).rem = s.rem := rfl
@[simp] theorem State.eq_emit (bytes : List Byte) : (s.emit bytes).eq = s.eq := rfl
@[simp] theorem State.status_emit (bytes : List Byte) : (s.emit bytes).status = s.status := rfl
@[simp] theorem State.cause_emit (bytes : List Byte) : (s.emit bytes).cause = s.cause := rfl
@[simp] theorem State.info_emit (bytes : List Byte) : (s.emit bytes).info = s.info := rfl
@[simp] theorem State.prog_emit (bytes : List Byte) : (s.emit bytes).prog = s.prog := rfl
@[simp] theorem State.output_emit (bytes : List Byte) : (s.emit bytes).output = s.output ++ bytes := rfl
@[simp] theorem State.diag_emit (bytes : List Byte) : (s.emit bytes).diag = s.diag := rfl
@[simp] theorem State.reg_emit (j : RegIndex) (bytes : List Byte) : (s.emit bytes).reg j = s.reg j := rfl

/-! ### sendDiag -/

@[simp] theorem State.x_sendDiag (r : DiagRecord) : (s.sendDiag r).x = s.x := rfl
@[simp] theorem State.pc_sendDiag (r : DiagRecord) : (s.sendDiag r).pc = s.pc := rfl
@[simp] theorem State.rem_sendDiag (r : DiagRecord) : (s.sendDiag r).rem = s.rem := rfl
@[simp] theorem State.eq_sendDiag (r : DiagRecord) : (s.sendDiag r).eq = s.eq := rfl
@[simp] theorem State.status_sendDiag (r : DiagRecord) : (s.sendDiag r).status = s.status := rfl
@[simp] theorem State.cause_sendDiag (r : DiagRecord) : (s.sendDiag r).cause = s.cause := rfl
@[simp] theorem State.info_sendDiag (r : DiagRecord) : (s.sendDiag r).info = s.info := rfl
@[simp] theorem State.prog_sendDiag (r : DiagRecord) : (s.sendDiag r).prog = s.prog := rfl
@[simp] theorem State.output_sendDiag (r : DiagRecord) : (s.sendDiag r).output = s.output := rfl
@[simp] theorem State.diag_sendDiag (r : DiagRecord) : (s.sendDiag r).diag = s.diag ++ [r] := rfl
@[simp] theorem State.reg_sendDiag (j : RegIndex) (r : DiagRecord) : (s.sendDiag r).reg j = s.reg j := rfl

/-! ### raise -/

@[simp] theorem State.x_raise (c : Cause) (i : Word) : (raise c i s).x = s.x := rfl
@[simp] theorem State.pc_raise (c : Cause) (i : Word) : (raise c i s).pc = s.pc := rfl
@[simp] theorem State.rem_raise (c : Cause) (i : Word) : (raise c i s).rem = s.rem := rfl
@[simp] theorem State.eq_raise (c : Cause) (i : Word) : (raise c i s).eq = s.eq := rfl
@[simp] theorem State.status_raise (c : Cause) (i : Word) : (raise c i s).status = .halted := rfl
@[simp] theorem State.cause_raise (c : Cause) (i : Word) : (raise c i s).cause = c := rfl
@[simp] theorem State.info_raise (c : Cause) (i : Word) : (raise c i s).info = i := rfl
@[simp] theorem State.prog_raise (c : Cause) (i : Word) : (raise c i s).prog = s.prog := rfl
@[simp] theorem State.output_raise (c : Cause) (i : Word) : (raise c i s).output = s.output := rfl
@[simp] theorem State.diag_raise (c : Cause) (i : Word) : (raise c i s).diag = s.diag := rfl
@[simp] theorem State.reg_raise (j : RegIndex) (c : Cause) (i : Word) : (raise c i s).reg j = s.reg j := rfl

/-! ### haltEndOfProgram -/

@[simp] theorem State.x_haltEndOfProgram : (haltEndOfProgram s).x = s.x := rfl
@[simp] theorem State.pc_haltEndOfProgram : (haltEndOfProgram s).pc = s.pc := rfl
@[simp] theorem State.rem_haltEndOfProgram : (haltEndOfProgram s).rem = s.rem := rfl
@[simp] theorem State.eq_haltEndOfProgram : (haltEndOfProgram s).eq = s.eq := rfl
@[simp] theorem State.status_haltEndOfProgram : (haltEndOfProgram s).status = .halted := rfl
@[simp] theorem State.cause_haltEndOfProgram : (haltEndOfProgram s).cause = .endOfProgram := rfl
@[simp] theorem State.info_haltEndOfProgram : (haltEndOfProgram s).info = 0 := rfl
@[simp] theorem State.prog_haltEndOfProgram : (haltEndOfProgram s).prog = s.prog := rfl
@[simp] theorem State.output_haltEndOfProgram : (haltEndOfProgram s).output = s.output := rfl
@[simp] theorem State.diag_haltEndOfProgram : (haltEndOfProgram s).diag = s.diag := rfl
@[simp] theorem State.reg_haltEndOfProgram (j : RegIndex) : (haltEndOfProgram s).reg j = s.reg j := rfl

/-! ### haltUnknown -/

@[simp] theorem State.x_haltUnknown (b0 : Byte) : (haltUnknown b0 s).x = s.x := rfl
@[simp] theorem State.pc_haltUnknown (b0 : Byte) : (haltUnknown b0 s).pc = s.pc + 1 := rfl
@[simp] theorem State.rem_haltUnknown (b0 : Byte) : (haltUnknown b0 s).rem = s.rem := rfl
@[simp] theorem State.eq_haltUnknown (b0 : Byte) : (haltUnknown b0 s).eq = s.eq := rfl
@[simp] theorem State.status_haltUnknown (b0 : Byte) : (haltUnknown b0 s).status = .halted := rfl
@[simp] theorem State.cause_haltUnknown (b0 : Byte) : (haltUnknown b0 s).cause = .unknownOpcode := rfl
@[simp] theorem State.info_haltUnknown (b0 : Byte) : (haltUnknown b0 s).info = b0.setWidth Config.xlen := rfl
@[simp] theorem State.prog_haltUnknown (b0 : Byte) : (haltUnknown b0 s).prog = s.prog := rfl
@[simp] theorem State.output_haltUnknown (b0 : Byte) : (haltUnknown b0 s).output = s.output := rfl
@[simp] theorem State.diag_haltUnknown (b0 : Byte) : (haltUnknown b0 s).diag = s.diag ++ [{ cause := .unknownOpcode, value := b0 }] := rfl
@[simp] theorem State.reg_haltUnknown (j : RegIndex) (b0 : Byte) : (haltUnknown b0 s).reg j = s.reg j := rfl

/-! ### placeAtPc -/

@[simp] theorem State.x_placeAtPc (bytes : List Byte) : (placeAtPc bytes s).x = s.x := rfl
@[simp] theorem State.pc_placeAtPc (bytes : List Byte) : (placeAtPc bytes s).pc = s.pc := rfl
@[simp] theorem State.rem_placeAtPc (bytes : List Byte) : (placeAtPc bytes s).rem = s.rem := rfl
@[simp] theorem State.eq_placeAtPc (bytes : List Byte) : (placeAtPc bytes s).eq = s.eq := rfl
@[simp] theorem State.status_placeAtPc (bytes : List Byte) : (placeAtPc bytes s).status = .running := rfl
@[simp] theorem State.cause_placeAtPc (bytes : List Byte) : (placeAtPc bytes s).cause = .none := rfl
@[simp] theorem State.info_placeAtPc (bytes : List Byte) : (placeAtPc bytes s).info = 0 := rfl
@[simp] theorem State.prog_placeAtPc (bytes : List Byte) : (placeAtPc bytes s).prog = s.prog.writeBytes s.pc.toNat bytes := rfl
@[simp] theorem State.output_placeAtPc (bytes : List Byte) : (placeAtPc bytes s).output = s.output := rfl
@[simp] theorem State.diag_placeAtPc (bytes : List Byte) : (placeAtPc bytes s).diag = s.diag := rfl
@[simp] theorem State.reg_placeAtPc (j : RegIndex) (bytes : List Byte) : (placeAtPc bytes s).reg j = s.reg j := rfl

/-! ### loadWith -/

@[simp] theorem State.x_loadWith (p : List Byte) : (loadWith p s).x = s.x := rfl
@[simp] theorem State.pc_loadWith (p : List Byte) : (loadWith p s).pc = 0 := rfl
@[simp] theorem State.rem_loadWith (p : List Byte) : (loadWith p s).rem = s.rem := rfl
@[simp] theorem State.eq_loadWith (p : List Byte) : (loadWith p s).eq = s.eq := rfl
@[simp] theorem State.status_loadWith (p : List Byte) : (loadWith p s).status = .running := rfl
@[simp] theorem State.cause_loadWith (p : List Byte) : (loadWith p s).cause = .none := rfl
@[simp] theorem State.info_loadWith (p : List Byte) : (loadWith p s).info = 0 := rfl
@[simp] theorem State.prog_loadWith (p : List Byte) : (loadWith p s).prog = Memory.ofBytes p := rfl
@[simp] theorem State.output_loadWith (p : List Byte) : (loadWith p s).output = s.output := rfl
@[simp] theorem State.diag_loadWith (p : List Byte) : (loadWith p s).diag = s.diag := rfl
@[simp] theorem State.reg_loadWith (j : RegIndex) (p : List Byte) : (loadWith p s).reg j = s.reg j := rfl

/-! ### resetWith -/

@[simp] theorem State.x_resetWith (p : List Byte) : (resetWith p s).x = State.reset.x := rfl
@[simp] theorem State.pc_resetWith (p : List Byte) : (resetWith p s).pc = 0 := rfl
@[simp] theorem State.rem_resetWith (p : List Byte) : (resetWith p s).rem = 0 := rfl
@[simp] theorem State.eq_resetWith (p : List Byte) : (resetWith p s).eq = false := rfl
@[simp] theorem State.status_resetWith (p : List Byte) : (resetWith p s).status = .running := rfl
@[simp] theorem State.cause_resetWith (p : List Byte) : (resetWith p s).cause = .none := rfl
@[simp] theorem State.info_resetWith (p : List Byte) : (resetWith p s).info = 0 := rfl
@[simp] theorem State.prog_resetWith (p : List Byte) : (resetWith p s).prog = Memory.ofBytes p := rfl
@[simp] theorem State.output_resetWith (p : List Byte) : (resetWith p s).output = s.output := rfl
@[simp] theorem State.diag_resetWith (p : List Byte) : (resetWith p s).diag = s.diag := rfl
@[simp] theorem State.reg_resetWith (j : RegIndex) (p : List Byte) : (resetWith p s).reg j = 0 := State.reg_reset j

end Sys2Proof.Machine
end

