-- ==== Sys2Proof/Laws/Step.lean ====
section
/-! SUPPORT. Everything a step can do, and what the fetch window holds. -/

namespace Sys2Proof.Machine

/-- Everything a step can do: stay halted, halt at the end of the program, halt on an unmapped opcode, raise
TruncatedFetch, or run the decoded instruction. -/
theorem step_next {s t : State} (h : step s = .next t) :
    (s.status = .halted ∧ t = s) ∨
    (s.status = .running ∧ decode (fetchWindow s) = .error .noBytes ∧ t = haltEndOfProgram s) ∨
    (s.status = .running ∧ ∃ b0, decode (fetchWindow s) = .error (.unknownOpcode b0) ∧ t = haltUnknown b0 s) ∨
    (s.status = .running ∧ decode (fetchWindow s) = .error .truncated ∧ t = raise .truncatedFetch 0 s) ∨
    (s.status = .running ∧ ∃ i rest, decode (fetchWindow s) = .ok (i, rest) ∧ exec i s = .next t) := by
  simp only [step, cycle] at h
  split at h
  · injection h with h
    exact .inl ⟨‹_›, h.symm⟩
  · have hrun : s.status = .running := ‹_›
    split at h
    · exact .inr (.inr (.inr (.inr ⟨hrun, _, _, ‹_›, h⟩)))
    · injection h with h
      exact .inr (.inl ⟨hrun, ‹_›, h.symm⟩)
    · injection h with h
      exact .inr (.inr (.inl ⟨hrun, _, ‹_›, h.symm⟩))
    · injection h with h
      exact .inr (.inr (.inr (.inl ⟨hrun, ‹_›, h.symm⟩)))

theorem step_halted {s : State} (h : s.status = .halted) : step s = .next s := by
  simp only [step, cycle, h]

/-- The window is empty exactly at or past the end of the program. -/
theorem fetchWindow_eq_nil_iff (s : State) : fetchWindow s = [] ↔ s.prog.length ≤ s.pc.toNat :=
  s.prog.fetch_eq_nil_iff ..

theorem length_fetchWindow (s : State) : (fetchWindow s).length = min 4 (s.prog.length - s.pc.toNat) :=
  s.prog.length_fetch ..

theorem getElem?_fetchWindow (s : State) (k : Nat) (h : k < 4) :
    (fetchWindow s)[k]? = s.prog.read (s.pc.toNat + k) :=
  s.prog.getElem?_fetch _ _ _ h

end Sys2Proof.Machine
end

