-- ==== Sys2Proof/Tests/Slice0.lean ====
section
/-! SUPPORT. The model's own tests: the smoke test of WellFormed, every encoding written out, one or two steps per
instruction with results from spec/95_test_vectors.md, and for each statement that has hypotheses a state that meets
them. -/

namespace Sys2Proof.Machine.Tests

/-! ### Building small states -/

/-- The engine after RESET of a program. -/
def fresh (bytes : List Byte) : State := resetWith bytes State.reset

/-- The engine about to run bytes placed at an offset. -/
def at_ (pc : Nat) (bytes : List Byte) : State := (fresh (List.replicate pc 0 ++ bytes)).setPc (BitVec.ofNat 32 pc)

/-- The same with some registers set. -/
def State.withRegs (s : State) (l : List (RegIndex × Int)) : State :=
  l.foldl (fun s p => s.setReg p.1 (BitVec.ofInt Config.xlen p.2)) s

/-- The next state, if there is one. -/
def after (r : Result) : Option State :=
  match r with
  | .next t => some t
  | .fault _ => none
  | .refused _ => none

/-! ### WellFormed refuses each register field of 32 or more (spec/30_encoding.md R49), and nothing else -/

theorem test_ill_formed_store_reg : WellFormed (.store 0x20 5) = false := by decide
theorem test_ill_formed_add_r1 : WellFormed (.add 0x20 0 0) = false := by decide
theorem test_ill_formed_add_r2 : WellFormed (.add 0 0x20 0) = false := by decide
theorem test_ill_formed_add_dest : WellFormed (.add 0 0 0x20) = false := by decide
theorem test_ill_formed_sub_r1 : WellFormed (.sub 0x20 0 0) = false := by decide
theorem test_ill_formed_mul_r2 : WellFormed (.mul 0 0xFF 0) = false := by decide
theorem test_ill_formed_div_dest : WellFormed (.div 0 0 0x20) = false := by decide
theorem test_ill_formed_eq_r1 : WellFormed (.eq 0x20 0 0) = false := by decide
theorem test_ill_formed_neq_r2 : WellFormed (.neq 0 0x20 0) = false := by decide
theorem test_ill_formed_gt_r1 : WellFormed (.gt 0x20 0 0) = false := by decide
theorem test_ill_formed_lt_r2 : WellFormed (.lt 0 0x20 0) = false := by decide
theorem test_ill_formed_gte_r1 : WellFormed (.gte 0x20 0 0) = false := by decide
theorem test_ill_formed_lte_r2 : WellFormed (.lte 0 0x20 0) = false := by decide
theorem test_ill_formed_jmp_reg : WellFormed (.jmp 0x20) = false := by decide
theorem test_ill_formed_jmpf_reg : WellFormed (.jmpf 0x80) = false := by decide
theorem test_ill_formed_jmpb_reg : WellFormed (.jmpb 0x20) = false := by decide
theorem test_ill_formed_jmpe_reg : WellFormed (.jmpe 0xFF) = false := by decide
theorem test_ill_formed_print_reg : WellFormed (.print 0x20) = false := by decide
theorem test_ill_formed_println_reg : WellFormed (.println 0x20) = false := by decide

theorem test_well_formed_top_register : WellFormed (.add 0x1F 0x1F 0x1F) = true := by decide

theorem test_well_formed_any_pad : WellFormed (.eq 0 0x1F 0xFF) = true := by decide

/-! ### Every instruction's bytes, bit by bit (spec/opcode_table.json `encoding`), decode to it -/

theorem test_decode_hlt : decode [0b00000000, 0xEE] = .ok (.hlt, [0xEE]) := rfl
theorem test_decode_store : decode [0b00000001, 0b00011111, 0b00010010, 0b00110100, 0xEE] = .ok (.store 31 0x1234, [0xEE]) := rfl
theorem test_decode_add : decode [0b00000010, 0b00000000, 0b00000001, 0b00000010, 0xEE] = .ok (.add 0 1 2, [0xEE]) := rfl
theorem test_decode_sub : decode [0b00000011, 0b00000011, 0b00000100, 0b00000101, 0xEE] = .ok (.sub 3 4 5, [0xEE]) := rfl
theorem test_decode_mul : decode [0b00000100, 0b00000110, 0b00000111, 0b00001000, 0xEE] = .ok (.mul 6 7 8, [0xEE]) := rfl
theorem test_decode_div : decode [0b00000101, 0b00000001, 0b00000010, 0b00000011, 0xEE] = .ok (.div 1 2 3, [0xEE]) := rfl
theorem test_decode_jmp : decode [0b00000110, 0b00000011, 0xEE] = .ok (.jmp 3, [0xEE]) := rfl
theorem test_decode_jmpf : decode [0b00000111, 0b00011110, 0xEE] = .ok (.jmpf 30, [0xEE]) := rfl
theorem test_decode_jmpb : decode [0b00001000, 0b00000101, 0xEE] = .ok (.jmpb 5, [0xEE]) := rfl
theorem test_decode_eq : decode [0b00001001, 0b00000000, 0b00000001, 0b10101011, 0xEE] = .ok (.eq 0 1 0xAB, [0xEE]) := rfl
theorem test_decode_neq : decode [0b00001010, 0b00000010, 0b00000001, 0b00000000, 0xEE] = .ok (.neq 2 1 0, [0xEE]) := rfl
theorem test_decode_gt : decode [0b00001011, 0b00000000, 0b00000011, 0b00000000, 0xEE] = .ok (.gt 0 3 0, [0xEE]) := rfl
theorem test_decode_lt : decode [0b00001100, 0b00000100, 0b00000001, 0b00000000, 0xEE] = .ok (.lt 4 1 0, [0xEE]) := rfl
theorem test_decode_gte : decode [0b00001101, 0b00000000, 0b00000010, 0b00000000, 0xEE] = .ok (.gte 0 2 0, [0xEE]) := rfl
theorem test_decode_lte : decode [0b00001110, 0b00000110, 0b00000101, 0b00000000, 0xEE] = .ok (.lte 6 5 0, [0xEE]) := rfl
theorem test_decode_jmpe : decode [0b00001111, 0b00000100, 0xEE] = .ok (.jmpe 4, [0xEE]) := rfl
theorem test_decode_print : decode [0b00010000, 0b00000000, 0xEE] = .ok (.print 0, [0xEE]) := rfl
theorem test_decode_println : decode [0b00010001, 0b00010000, 0xEE] = .ok (.println 16, [0xEE]) := rfl

theorem test_decode_unknown : decode [0x12, 0x00] = .error (.unknownOpcode 0x12) := rfl

theorem test_decode_truncated : decode [0x01, 0x20, 0x00] = .error .truncated := rfl

theorem test_table_word_store : decodeTableWord 32 0x01001234 = some (.store 0 0x1234) := by decide

theorem test_table_word_jmp : decodeTableWord 16 0x0603 = some (.jmp 3) := by decide

theorem test_table_word_hlt : decodeTableWord 8 0 = some .hlt := by decide

/-- The instruction placed by `withFetchWord` is the first that runs after reset. -/
theorem test_fetch_word_runs : (after (step (State.reset.withFetchWord 32 0x01051234))).map
    (fun t => (t.reg 5, t.pc, t.status)) = some (0x1234, 4, .running) := by decide

/-! ### One step per instruction; the expected values are those of the vectors named (spec/95_test_vectors.md) -/

/-- T-HX2. -/
theorem test_hlt : (after (step (State.withRegs (fresh [0x00]) []))).map
    (fun t => (t.status, t.cause, t.pc)) = some (.halted, .hltExecuted, 1) := by decide

/-- T-ST4. -/
theorem test_store_sign : (after (step (State.withRegs (fresh [0x01, 0x05, 0xFF, 0xFF]) [(5, 123456789)]))).map
    (fun t => ((t.reg 5).toInt, t.pc)) = some (-1, 4) := by decide

/-- T-ST5. -/
theorem test_store_big_endian : (after (step (State.withRegs (fresh [0x01, 0x1F, 0x12, 0x34]) []))).map
    (fun t => ((t.reg 31).toInt, t.pc)) = some (4660, 4) := by decide

/-- T-AR2. -/
theorem test_add_wraps : (after (step (State.withRegs (fresh [0x02, 0x00, 0x01, 0x02]) [(0, 2147483647), (1, 1)]))).map
    (fun t => ((t.reg 2).toInt, t.pc)) = some (-2147483648, 4) := by decide

/-- T-AR4. -/
theorem test_add_same_register : (after (step (State.withRegs (fresh [0x02, 0x00, 0x00, 0x00]) [(0, -2147483648)]))).map
    (fun t => ((t.reg 0).toInt, t.pc)) = some (0, 4) := by decide

/-- T-AR5. -/
theorem test_sub_into_source : (after (step (State.withRegs (fresh [0x03, 0x00, 0x01, 0x00]) [(0, 3), (1, 1)]))).map
    (fun t => ((t.reg 0).toInt, (t.reg 1).toInt)) = some (2, 1) := by decide

/-- T-AR9. -/
theorem test_sub_order : (after (step (State.withRegs (fresh [0x03, 0x00, 0x01, 0x02]) [(0, 1), (1, 3)]))).map
    (fun t => (t.reg 2).toInt) = some (-2) := by decide

/-- T-AR11. -/
theorem test_mul_wraps : (after (step (State.withRegs (fresh [0x04, 0x00, 0x01, 0x02]) [(0, 46341), (1, 46341)]))).map
    (fun t => (t.reg 2).toInt) = some (-2147479015) := by decide

/-- T-AR14. -/
theorem test_mul_signed : (after (step (State.withRegs (fresh [0x04, 0x00, 0x01, 0x02]) [(0, -3), (1, 4)]))).map
    (fun t => (t.reg 2).toInt) = some (-12) := by decide

/-- T-DV10. -/
theorem test_div_signs : (after (step (State.withRegs (fresh [0x05, 0x00, 0x01, 0x02]) [(0, -2147483648), (1, 2147483647)]))).map
    (fun t => ((t.reg 2).toInt, t.rem)) = some (-1, 0xFFFFFFFF) := by decide

/-- T-DV13. -/
theorem test_div_overflow : (after (step (State.withRegs (fresh [0x05, 0x00, 0x01, 0x02]) [(0, -2147483648), (1, -1), (2, 9)]))).map
    (fun t => ((t.reg 2).toInt, t.rem, t.cause, t.pc)) = some (9, 0, .divideOverflow, 0) := by decide

/-- T-JP1. -/
theorem test_jmp : (after (step (State.withRegs (at_ 32 [0x06, 0x03]) [(3, 20)]))).map
    (fun t => (t.pc, t.status)) = some (20, .running) := by decide

/-- T-JP4. -/
theorem test_jmp_negative : (after (step (State.withRegs (at_ 4 [0x06, 0x00]) [(0, -1)]))).map
    (fun t => (t.cause, t.info, t.pc)) = some (.jumpRange, 0xFFFFFFFF, 4) := by decide

/-- T-JP6. -/
theorem test_jmpf : (after (step (State.withRegs (at_ 4 [0x07, 0x00]) [(0, 4)]))).map
    (fun t => t.pc) = some 10 := by decide

/-- T-JP8. -/
theorem test_jmpf_negative : (after (step (State.withRegs (at_ 4 [0x07, 0x00]) [(0, -2)]))).map
    (fun t => (t.cause, t.info, t.pc)) = some (.jumpRange, 0xFFFFFFFE, 4) := by decide

/-- T-JP9. -/
theorem test_jmpb : (after (step (State.withRegs (at_ 30 [0x08, 0x03]) [(3, 12)]))).map
    (fun t => t.pc) = some 20 := by decide

/-- T-JP11. -/
theorem test_jmpb_below_zero : (after (step (State.withRegs (at_ 4 [0x08, 0x00]) [(0, 7)]))).map
    (fun t => (t.cause, t.info, t.pc)) = some (.jumpRange, 7, 4) := by decide

/-- T-JP14. -/
theorem test_jmpe_taken : (after (step ((State.withRegs (at_ 24 [0x0F, 0x04]) [(4, 34)]).setEq true))).map
    (fun t => (t.pc, t.eq)) = some (34, true) := by decide

/-- T-JP16. -/
theorem test_jmpe_not_taken : (after (step (State.withRegs (at_ 24 [0x0F, 0x04]) [(4, -1)]))).map
    (fun t => (t.pc, t.eq, t.status)) = some (26, false, .running) := by decide

/-- T-CM1. -/
theorem test_eq : (after (step (State.withRegs (fresh [0x09, 0x00, 0x01, 0x00]) [(0, 5), (1, 5)]))).map
    (fun t => (t.eq, t.pc)) = some (true, 4) := by decide

/-- T-CM11. -/
theorem test_eq_pad_is_no_register : (after (step ((State.withRegs (fresh [0x09, 0x00, 0x01, 0x20]) [(0, 5), (1, 6)]).setEq true))).map
    (fun t => (t.eq, t.cause)) = some (false, .none) := by decide

/-- T-CM2. -/
theorem test_neq : (after (step (State.withRegs (fresh [0x0A, 0x00, 0x01, 0x00]) [(0, 2), (1, 7)]))).map
    (fun t => (t.eq, t.pc)) = some (true, 4) := by decide

/-- T-CM6. -/
theorem test_gt_signed : (after (step (State.withRegs (fresh [0x0B, 0x00, 0x01, 0x00]) [(0, 0), (1, -1)]))).map
    (fun t => t.eq) = some true := by decide

/-- T-CM4. -/
theorem test_lt_signed : (after (step (State.withRegs (fresh [0x0C, 0x00, 0x01, 0x00]) [(0, -1), (1, 1)]))).map
    (fun t => t.eq) = some true := by decide

/-- T-CM5. -/
theorem test_gte : (after (step ((State.withRegs (fresh [0x0D, 0x00, 0x01, 0x00]) [(0, -2147483648), (1, 2147483647)]).setEq true))).map
    (fun t => t.eq) = some false := by decide

/-- T-CM1. -/
theorem test_lte : (after (step (State.withRegs (fresh [0x0E, 0x00, 0x01, 0x00]) [(0, 5), (1, 5)]))).map
    (fun t => t.eq) = some true := by decide

/-- T-PR2. -/
theorem test_print_negative : (after (step (State.withRegs (fresh [0x10, 0x00]) [(0, -5)]))).map
    (fun t => (t.output, t.pc)) = some ([0x2D, 0x35], 2) := by decide

/-- T-PR4. -/
theorem test_println_min : (after (step (State.withRegs (fresh [0x11, 0x00]) [(0, -2147483648)]))).map
    (fun t => t.output) = some [0x2D, 0x32, 0x31, 0x34, 0x37, 0x34, 0x38, 0x33, 0x36, 0x34, 0x38, 0x0A] := by decide

/-- T-PR3. -/
theorem test_println : (after (step (State.withRegs (fresh [0x11, 0x00]) [(0, 1000)]))).map
    (fun t => (t.output, t.pc)) = some ([0x31, 0x30, 0x30, 0x30, 0x0A], 2) := by decide

/-- T-HX1. -/
theorem test_end_of_program : (after (step (State.withRegs (fresh []) []))).map
    (fun t => (t.status, t.cause, t.pc)) = some (.halted, .endOfProgram, 0) := by decide

/-- T-HX4. -/
theorem test_unknown : (after (step (State.withRegs (fresh [0x12]) []))).map
    (fun t => (t.cause, t.info, t.pc, t.diag.length)) = some (.unknownOpcode, 0x12, 1, 1) := by decide

/-- T-AR16. -/
theorem test_first_bad_field : (after (step (State.withRegs (fresh [0x02, 0x21, 0x22, 0x23]) []))).map
    (fun t => (t.cause, t.info, t.pc)) = some (.registerIndex, 0x21, 0) := by decide

/-- T-ST8. -/
theorem test_truncation_first : (after (step (State.withRegs (fresh [0x01, 0x20, 0x00]) []))).map
    (fun t => (t.cause, t.info)) = some (.truncatedFetch, 0) := by decide

/-- T-DV15. -/
theorem test_register_before_divisor : (after (step (State.withRegs (fresh [0x05, 0x00, 0x00, 0x20]) []))).map
    (fun t => (t.cause, t.info)) = some (.registerIndex, 0x20) := by decide

/-- T-JP18. -/
theorem test_jmpe_checks_register : (after (step (State.withRegs (fresh [0x0F, 0x20]) []))).map
    (fun t => (t.cause, t.info)) = some (.registerIndex, 0x20) := by decide

/-- T-HS2: LOAD_PROGRAM clears a fault and keeps registers. -/
theorem test_load_program : (after (cmdLoadProgram [0x10, 0x00] ((State.withRegs (fresh [0x05]) [(0, 5)]).halt .divideByZero 0))).map
    (fun t => (t.status, t.cause, t.pc, (t.reg 0).toInt, t.prog.toBytes)) = some (.running, .none, 0, 5, [0x10, 0x00]) := by
  decide

/-- READ gives the codes of R21 and R141. -/
theorem test_read_codes : ((cmdRead (State.reset.halt .jumpRange 7)).status, (cmdRead (State.reset.halt .jumpRange 7)).cause,
    (cmdRead (State.reset.halt .jumpRange 7)).info) = (1, 8, 7) := by decide

/-! ### States that meet the hypotheses of the statements -/

/-- A state that RESET of a short program gives, with registers and `eq` set, meets the invariant. -/
theorem fresh_inv (bytes : List Byte) (h : bytes.length ≤ Config.progMax) (pc : Word) (hpc : pc.toNat ≤ 4294967294)
    (l : List (RegIndex × Int)) (b : Bool) : ((State.withRegs ((fresh bytes).setPc pc) l).setEq b).Inv := by
  have key : ∀ (l : List (RegIndex × Int)) (s : State), s.Inv → (State.withRegs s l).Inv := by
    intro l
    induction l with
    | nil => exact fun s hs => hs
    | cons p l ih => exact fun s hs => ih _ ⟨hs.running_record, hs.halted_record, hs.pc_bound, hs.prog_wf⟩
  have h0 : ((fresh bytes).setPc pc).Inv :=
    ⟨fun _ => ⟨rfl, rfl⟩, fun h => Status.noConfusion h, hpc, Memory.wf_ofBytes h⟩
  have h1 := key l _ h0
  exact ⟨h1.running_record, h1.halted_record, h1.pc_bound, h1.prog_wf⟩

/-- The state of the witnesses: a program, registers, `eq`. -/
def w (bytes : List Byte) (l : List (RegIndex × Int)) (b : Bool) : State :=
  (State.withRegs ((fresh bytes).setPc 0) l).setEq b

theorem w_inv (bytes : List Byte) (h : bytes.length ≤ Config.progMax) (l : List (RegIndex × Int)) (b : Bool) :
    (w bytes l b).Inv := fresh_inv bytes h 0 (by decide) l b

/-- Decidable form of `BytesAtPc`, for the witnesses. -/
theorem bytesAtPc_of_all {s : State} {bytes : List Byte}
    (h : (List.range bytes.length).all (fun k => s.prog.read (s.pc.toNat + k) == bytes[k]?) = true) : BytesAtPc s bytes := by
  intro k hk
  simpa using List.all_eq_true.mp h k (List.mem_range.mpr hk)

theorem witness_CommonPart_truncated :
    ∀ op ∈ allOpcodes, op ≠ .hlt → ∀ n ∈ [1, op.format.length - 1],
      (w (opmap op :: List.replicate (n - 1) 0) [] false).status = .running ∧
      (w (opmap op :: List.replicate (n - 1) 0) [] false).prog.read 0 = some (opmap op) ∧
      (w (opmap op :: List.replicate (n - 1) 0) [] false).prog.length < 0 + op.format.length := by decide

theorem witness_CommonPart_bad_field :
    firstBadField (.add 0x1F 0x20 0xFF) = some 0x20 ∧ firstBadField (.jmpe 0xFF) = some 0xFF ∧
      firstBadField (.lte 0x1F 0x20 0) = some 0x20 ∧ firstBadField (.store 0x20 0) = some 0x20 := by decide

theorem witness_InstructionLengths :
    (encode (.jmp 0)).head? = (encode (.jmp 31)).head? := rfl

theorem witness_PadByteIgnored :
    [Instr.eq, .neq, .gt, .lt, .gte, .lte].length = 6 := rfl

theorem witness_StepRunsDecodedInstruction :
    (w [0x0F, 0x04] [] false).status = .running ∧
      decode (fetchWindow (w [0x0F, 0x04] [] false)) = .ok (.jmpe 4, []) := ⟨rfl, rfl⟩

theorem witness_StepRunsInstructionStoredAtPc :
    (w [0x01, 0x1F, 0x80, 0x00] [] false).status = .running ∧
      BytesAtPc (w [0x01, 0x1F, 0x80, 0x00] [] false) (encode (.store 31 0x8000)) := ⟨rfl, bytesAtPc_of_all (by decide)⟩

theorem witness_EndOfProgramHaltsCleanly :
    (w [] [] false).status = .running ∧ (w [] [] false).prog.length ≤ (w [] [] false).pc.toNat ∧
      ((w [0x00] [] false).advance 1).prog.length ≤ ((w [0x00] [] false).advance 1).pc.toNat := by decide

theorem witness_UnknownOpcodeHalts :
    (w [0x12] [] false).status = .running ∧ BytesAtPc (w [0x12] [] false) [0x12] ∧ 0x12 ≤ (0x12 : Byte).toNat ∧
      BytesAtPc (w [0xFF] [] false) [0xFF] := ⟨rfl, bytesAtPc_of_all (by decide), by decide, bytesAtPc_of_all (by decide)⟩

theorem witness_HaltedEngineStaysPut :
    (State.reset.halt .hltExecuted 0).status = .halted := rfl

theorem witness_StepReportsHalted :
    cmdStep State.reset = .next (haltEndOfProgram State.reset, true) ∧
      cmdStep (w [0x07, 0x00] [] false) = .next ((w [0x07, 0x00] [] false).setPc 2, false) := ⟨rfl, rfl⟩

theorem witness_FaultsArePrecise :
    ∃ t, (w [0x05, 0x00, 0x01, 0x02] [] false).Inv ∧ (w [0x05, 0x00, 0x01, 0x02] [] false).status = .running ∧
      step (w [0x05, 0x00, 0x01, 0x02] [] false) = .next t ∧ Faulted t := ⟨_, w_inv _ (by decide) _ _, rfl, rfl, by decide⟩

theorem witness_TruncatedFetchExactly :
    ∃ t u, (w [0x06] [] false).Inv ∧ BytesAtPc (w [0x06] [] false) [opmap .jmp] ∧
      step (w [0x06] [] false) = .next t ∧ (w [0x06] [] false).prog.length < 0 + 2 ∧
      BytesAtPc (w [0x09, 0, 0, 0] [] false) [opmap .eq] ∧ step (w [0x09, 0, 0, 0] [] false) = .next u ∧
      ¬ (w [0x09, 0, 0, 0] [] false).prog.length < 0 + 4 := ⟨_, _, w_inv _ (by decide) _ _, bytesAtPc_of_all (by decide), rfl, by decide, bytesAtPc_of_all (by decide), rfl, by decide⟩

theorem witness_RegisterIndexExactly :
    ∃ t u, (w [] [] false).Inv ∧ (w [] [] false).status = .running ∧ exec (.jmpe 0x20) (w [] [] false) = .next t ∧
      firstBadField (.jmpe 0x20) = some 0x20 ∧ exec (.jmpe 0x1F) (w [] [] false) = .next u ∧ WellFormed (.jmpe 0x1F) = true := ⟨_, _, w_inv _ (by decide) _ _, rfl, rfl, by decide, rfl, by decide⟩

theorem witness_OwnFaultsByInstruction :
    ∃ t u, (w [] [(0, -1)] true).Inv ∧ (w [] [(0, -1)] true).status = .running ∧
      exec (.div 0 1 2) (w [] [(0, -1)] true) = .next t ∧ t.cause = .divideByZero ∧
      exec (.jmpe 0) (w [] [(0, -1)] true) = .next u ∧ u.cause = .jumpRange := ⟨_, _, w_inv _ (by decide) _ _, rfl, rfl, rfl, rfl, rfl⟩

theorem witness_EveryHaltHasOneCause :
    ∃ t u, (w [0x00] [] false).Inv ∧ (w [0x00] [] false).status = .running ∧ step (w [0x00] [] false) = .next t ∧
      EndedWell t ∧ step (w [0x12] [] false) = .next u ∧ GoneWrong u := ⟨_, _, w_inv _ (by decide) _ _, rfl, rfl, by decide, rfl, by decide⟩

theorem witness_DecimalImmediateLoadsItself :
    (-32768 : Int) ≤ -32768 ∧ (-32768 : Int) ≤ 32767 ∧ (-32768 : Int) ≤ 32767 ∧ (32767 : Int) ≤ 32767 := by decide

theorem witness_DivWritesQuotientAndRemainder :
    ((w [] [(0, -2147483648), (1, 1)] false).reg 1).toInt ≠ 0 ∧
      ¬ (((w [] [(0, -2147483648), (1, 1)] false).reg 0).toInt = intMin ∧ ((w [] [(0, -2147483648), (1, 1)] false).reg 1).toInt = -1) ∧
      ¬ (((w [] [(0, -2147483647), (1, -1)] false).reg 0).toInt = intMin ∧ ((w [] [(0, -2147483647), (1, -1)] false).reg 1).toInt = -1) := by decide

theorem witness_DivRemainderLaw :
    ∃ t, (w [] [(0, -7), (1, 2)] false).Inv ∧ (w [] [(0, -7), (1, 2)] false).status = .running ∧
      exec (.div (regByte 0) (regByte 1) (regByte 2)) (w [] [(0, -7), (1, 2)] false) = .next t ∧ t.status = .running := ⟨_, w_inv _ (by decide) _ _, rfl, rfl, rfl⟩

theorem witness_DivByZeroFaults :
    (w [] [(0, -7)] false).reg 1 = 0 := by decide

theorem witness_DivOverflowFaults :
    ((w [] [(0, -2147483648), (1, -1)] false).reg 0).toInt = intMin ∧
      ((w [] [(0, -2147483648), (1, -1)] false).reg 1).toInt = -1 ∧
      (1 : Word).toInt ≠ 0 ∧ ¬ ((BitVec.ofInt Config.xlen (-2147483648)).toInt = intMin ∧ (1 : Word).toInt = -1) := by decide

theorem witness_JmpGoesToRegister :
    0 ≤ ((w [] [(0, 2147483647)] false).reg 0).toInt ∧ 0 ≤ ((w [] [(0, 0)] false).reg 0).toInt ∧
      ((w [] [(0, -1)] false).reg 0).toInt < 0 := by decide

theorem witness_JmpfGoesForward :
    0 ≤ ((w [] [(0, 2147483647)] false).reg 0).toInt ∧
      ((w [] [(0, 2147483647)] false).setPc 2147483645).pc.toNat + 2 ≤ Config.progMax ∧
      ((w [] [(0, -2147483648)] false).reg 0).toInt < 0 := by decide

theorem witness_JmpbGoesBackward :
    0 ≤ ((w [] [(0, 2)] false).reg 0).toInt ∧ ((w [] [(0, 2)] false).reg 0).toInt ≤ ((w [] [(0, 2)] false).pc.toNat : Int) + 2 ∧
      ((w [] [(0, 2)] false).setPc 4294967293).pc.toNat ≤ 4294967293 ∧
      ((w [] [(0, 3)] false).pc.toNat : Int) + 2 < ((w [] [(0, 3)] false).reg 0).toInt ∧
      ((w [] [(0, -1)] false).reg 0).toInt < 0 := by decide

theorem witness_JmpeJumpsWhenEq :
    (w [] [(0, 0)] true).eq = true ∧ 0 ≤ ((w [] [(0, 0)] true).reg 0).toInt ∧
      (w [] [(0, -1)] true).eq = true ∧ ((w [] [(0, -1)] true).reg 0).toInt < 0 ∧ (w [] [(0, -1)] false).eq = false := by decide

theorem witness_NegativeJumpOperandFaults :
    ((w [] [(31, -1)] true).reg 31).toInt < 0 ∧
      Instr.jmpe (regByte 31) ∈ [Instr.jmp (regByte 31), .jmpf (regByte 31), .jmpb (regByte 31), .jmpe (regByte 31)] ∧
      ((Instr.jmpe (regByte 31)).opcode = .jmpe → (w [] [(31, -1)] true).eq = true) := by decide

theorem witness_LeavingTheProgramEndsTheRun :
    ((w [0x06, 0x00] [(0, 2)] true).status = .running ∧ (w [0x06, 0x00] [(0, 2)] true).eq = true ∧
      ((w [0x06, 0x00] [(0, 2)] true).prog.length : Int) ≤ ((w [0x06, 0x00] [(0, 2)] true).reg 0).toInt) ∧
      ((w [0x07, 0x00] [] false).status = .running ∧ 0 ≤ ((w [0x07, 0x00] [] false).reg 0).toInt ∧
      ((w [0x07, 0x00] [] false).prog.length : Int) ≤
        ((w [0x07, 0x00] [] false).pc.toNat : Int) + 2 + ((w [0x07, 0x00] [] false).reg 0).toInt ∧
      ((w [0x08, 0x00] [] false).prog.length : Int) ≤
        ((w [0x08, 0x00] [] false).pc.toNat : Int) + 2 - ((w [0x08, 0x00] [] false).reg 0).toInt) ∧
      step (w [0x06, 0x00] [(0, 2)] false) = .next ((w [0x06, 0x00] [(0, 2)] false).setPc 2) ∧
      (w [0x06, 0x00] [(0, 2)] false).prog.length ≤ ((w [0x06, 0x00] [(0, 2)] false).setPc 2).pc.toNat := ⟨by decide, by decide, rfl, by decide⟩

theorem witness_JmpfThenJmpbDisplacementsCancel :
    ((w [] [(0, 2147483647)] false).setPc 2147483645).pc.toNat + 2 ≤ Config.progMax ∧
      0 ≤ (((w [] [(0, 2147483647)] false).setPc 2147483645).reg 0).toInt := by decide

theorem witness_ComparisonOutcomeTable :
    ((w [] [(0, -2147483648), (1, 2147483647)] false).reg 0).toInt < ((w [] [(0, -2147483648), (1, 2147483647)] false).reg 1).toInt ∧
      ((w [] [] false).reg 0).toInt = ((w [] [] false).reg 1).toInt ∧
      ((w [] [(0, 0), (1, -1)] false).reg 1).toInt < ((w [] [(0, 0), (1, -1)] false).reg 0).toInt := by decide

theorem witness_OnlyDestinationRegisterChanges :
    ∃ t, step (w [0x01, 0x1F, 0x00, 0x05] [] false) = .next t ∧ t.reg 31 ≠ (w [0x01, 0x1F, 0x00, 0x05] [] false).reg 31 := ⟨_, rfl, by decide⟩

theorem witness_RemWrittenByDivOnly :
    ∃ t, step (w [0x05, 0x00, 0x01, 0x02] [(0, 7), (1, 2)] false) = .next t ∧
      t.rem ≠ (w [0x05, 0x00, 0x01, 0x02] [(0, 7), (1, 2)] false).rem := ⟨_, rfl, by decide⟩

theorem witness_EqWrittenByComparisonsOnly :
    ∃ t, step (w [0x09, 0x00, 0x01, 0x00] [] false) = .next t ∧ t.eq ≠ (w [0x09, 0x00, 0x01, 0x00] [] false).eq := ⟨_, rfl, by decide⟩

theorem witness_RemCauseInfoAndSinksAreNotRead :
    ∃ t t', step (w [0x10, 0x00] [] false) = .next t ∧
      step { w [0x10, 0x00] [] false with rem := 1, cause := .jumpRange, info := 2, output := [0x30], diag := [] } = .next t' := ⟨_, _, rfl, rfl⟩

theorem witness_EqReadByJmpeOnly :
    ∃ t u, (Instr.jmp 0).opcode ≠ .jmpe ∧ exec (.jmp 0) (w [] [] true) = .next t ∧
      (Instr.neq 0 31 0).opcode ∈ [Opcode.eq, .neq, .gt, .lt, .gte, .lte] ∧ WellFormed (.neq 0 31 0) = true ∧
      exec (.neq 0 31 0) (w [] [] true) = .next u ∧ u.eq = false := ⟨_, _, by decide, rfl, by decide, by decide, rfl, rfl⟩

theorem witness_OutputOnlyGrowsByPrint :
    ∃ t, step (w [0x10, 0x00] [] false) = .next t ∧ t.output ≠ (w [0x10, 0x00] [] false).output := ⟨_, rfl, by decide⟩

theorem witness_DiagnosticOnlyForUnknownOpcode :
    ∃ t, step (w [0x12] [] false) = .next t ∧ t.diag ≠ (w [0x12] [] false).diag := ⟨_, rfl, by decide⟩

theorem witness_ProgramWrittenByHostOnly :
    ∃ t u, step (w [0x01, 0, 0, 0] [] false) = .next t ∧
      applyCommand (.loadProgram [0x00]) State.reset = .next u ∧ u.prog ≠ State.reset.prog := ⟨_, _, rfl, rfl, by decide⟩

theorem witness_CanonicalBuffersAreEqualData :
    (Memory.ofBytes [0, 1, 0]).wf = true ∧ ((Memory.ofBytes [0, 0, 0]).write 1 1).wf = true ∧
      ∀ a ∈ List.range 4, (Memory.ofBytes [0, 1, 0]).read a = ((Memory.ofBytes [0, 0, 0]).write 1 1).read a := by decide

/-- Program lengths at both sides of PROG_MAX, for ResetGivesResetValues and LoadProgramKeepsRegisters. -/
theorem witness_ProgramLengths : (List.replicate 2147483647 (0 : Byte)).length ≤ 2147483647 ∧
    2147483647 < (List.replicate 2147483648 (0 : Byte)).length := by
  simp only [List.length_replicate]
  decide

theorem witness_RunEndsHaltedOnce :
    RunEnds State.reset (haltEndOfProgram State.reset) := ⟨1, rfl⟩

theorem witness_RunEndsHaltedOnce_hang :
    ∃ s : State, step s = .next s ∧ s.status = .running := ⟨w [0x06, 0x00] [] false, rfl, rfl⟩

theorem witness_StepKeepsInvariant :
    ∃ t, (w [0x00] [] false).Inv ∧ step (w [0x00] [] false) = .next t := ⟨_, w_inv _ (by decide) _ _, rfl⟩

theorem witness_ReachableStatesMeetInvariant :
    ∃ t, Reachable t ∧ t.prog.length = 2 ∧ t.pc = 2 := ⟨(loadWith [0x07, 0x00] State.reset).setPc 2,
      .command .step (loadWith [0x07, 0x00] State.reset) _ (.command (.loadProgram [0x07, 0x00]) _ _ .reset rfl) rfl, rfl, rfl⟩

theorem witness_HostCommandsKeepInvariant :
    ∃ t u, (w [0x00] [] false).Inv ∧ applyCommand (.reset [0x00]) (w [0x00] [] false) = .next t ∧
      applyCommand (.loadProgram [0x12]) (w [0x00] [] false) = .next u ∧ u.prog ≠ (w [0x00] [] false).prog := ⟨_, _, w_inv _ (by decide) _ _, rfl, rfl, by decide⟩

end Sys2Proof.Machine.Tests
end

/-! PROOFS. What a step writes and what it reads, and the invariant of the state (spec/10_state.md). -/

namespace Sys2Proof

/-! ### The bytes a decoded instruction takes -/

theorem takeOne_eq_ok_operands {build : Byte → Instr} {op : Opcode} {bytes rest : List Byte} {i : Instr}
    (hb : ∀ b1, (build b1).opcode = op ∧ (build b1).operandBytes = [b1])
    (h : takeOne build bytes = .ok (i, rest)) : i.opcode = op ∧ bytes = i.operandBytes ++ rest := by
  obtain ⟨b1, rfl, rfl⟩ := (takeOne_eq_ok_iff ..).mp h
  simp [hb b1]

theorem takeThree_eq_ok_operands {build : Byte → Byte → Byte → Instr} {op : Opcode} {bytes rest : List Byte} {i : Instr}
    (hb : ∀ b1 b2 b3, (build b1 b2 b3).opcode = op ∧ (build b1 b2 b3).operandBytes = [b1, b2, b3])
    (h : takeThree build bytes = .ok (i, rest)) : i.opcode = op ∧ bytes = i.operandBytes ++ rest := by
  obtain ⟨b1, b2, b3, rfl, rfl⟩ := (takeThree_eq_ok_iff ..).mp h
  simp [hb b1 b2 b3]

/-- The operand fetch answers an instruction of the opcode it was given and takes exactly its operand bytes (R47). -/
theorem decodeOperands_eq_ok {op : Opcode} {bytes rest : List Byte} {i : Instr}
    (h : decodeOperands op bytes = .ok (i, rest)) : i.opcode = op ∧ bytes = i.operandBytes ++ rest := by
  cases op
  case hlt =>
    obtain ⟨rfl, rfl⟩ : Instr.hlt = i ∧ bytes = rest := by simpa [decodeOperands] using h
    exact ⟨rfl, rfl⟩
  case store => exact takeThree_eq_ok_operands (fun _ _ _ => ⟨rfl, by simp [Instr.operandBytes]⟩) h
  case add | sub | mul | div | eq | neq | gt | lt | gte | lte =>
    exact takeThree_eq_ok_operands (fun _ _ _ => ⟨rfl, rfl⟩) h
  case jmp | jmpf | jmpb | jmpe | print | println => exact takeOne_eq_ok_operands (fun _ => ⟨rfl, rfl⟩) h

/-- Bytes that decode begin with the bytes of the instruction they decode to (R45, R55). -/
theorem eq_encode_append_of_decode {bytes rest : List Byte} {i : Instr} (h : decode bytes = .ok (i, rest)) :
    bytes = encode i ++ rest := by
  cases bytes with
  | nil => cases h
  | cons b0 operands =>
    cases hop : opcodeOf b0 with
    | none => simp [decode, hop] at h
    | some op =>
      obtain ⟨rfl, rfl⟩ := decodeOperands_eq_ok (op := op) (bytes := operands) (by simpa [decode, hop] using h)
      rw [(opcodeOf_eq_some_iff b0 _).mp hop, encode, List.cons_append]

theorem length_encode (i : Instr) : (encode i).length = i.length := by
  cases i <;> rfl

theorem Instr.length_pos (i : Instr) : 0 < i.length := by
  rw [← length_encode]
  exact Nat.succ_pos _

theorem Instr.eq_div_of_opcode {i : Instr} (h : i.opcode = .div) : ∃ r1 r2 dest, i = .div r1 r2 dest := by
  cases i <;> simp_all [Instr.opcode]

/-- The opcodes of the comparisons are those of the six instructions. -/
theorem Instr.eq_comparison_of_opcode {i : Instr} (h : i.opcode ∈ [Opcode.eq, .neq, .gt, .lt, .gte, .lte]) :
    ∃ mk ∈ [Instr.eq, .neq, .gt, .lt, .gte, .lte], ∃ r1 r2 pad, i = mk r1 r2 pad := by
  cases i <;> simp_all [Instr.opcode]

/-! ### Offsets and jump distances -/

/-- The offset after an instruction inside a program of at most PROG_MAX bytes does not wrap (R108). -/
theorem Offset.toNat_add_of_le_progMax {a n : Offset} (ha : a.toNat ≤ Config.progMax) (hn : n.toNat ≤ 4) :
    (a + n).toNat = a.toNat + n.toNat := by
  rw [Offset.toNat_add]
  simp only [Config.progMax] at ha
  omega

/-- A value that a jump accepts is at most INT_MAX (R6). -/
theorem Word.toNat_le_of_nonneg {v : Word} (h : 0 ≤ v.toInt) : v.toNat ≤ 2147483647 := by
  have heq := Word.toNat_eq_toInt h
  have hmax := (Word.toInt_bounds v).2
  simp only [intMax] at hmax
  omega

end Sys2Proof

namespace Sys2Proof.Machine

/-! ### Where a step that fetches stands -/

/-- A step that finds a byte to decode stands inside the program. -/
theorem pc_lt_length_of_decode_unknown {s : State} {b0 : Byte}
    (h : decode (fetchWindow s) = .error (.unknownOpcode b0)) : s.pc.toNat < s.prog.length := by
  by_contra hle
  rw [(fetchWindow_eq_nil_iff s).mpr (by omega)] at h
  cases h

/-- An instruction that decodes lies inside the program with all its bytes (R68). -/
theorem pc_add_length_le_of_decode {s : State} {i : Instr} {rest : List Byte}
    (h : decode (fetchWindow s) = .ok (i, rest)) : s.pc.toNat + i.length ≤ s.prog.length := by
  have hwin : (fetchWindow s).length = i.length + rest.length := by
    rw [eq_encode_append_of_decode h, List.length_append, length_encode]
  have hpos := i.length_pos
  rw [length_fetchWindow] at hwin
  omega

/-! ### The invariant: what keeps it -/

theorem State.Inv.length_le {s : State} (hs : s.Inv) : s.prog.length ≤ Config.progMax :=
  ((Memory.wf_iff _).mp hs.prog_wf).2

/-- A state that halts with a cause, the program kept and `pc` in range, meets the invariant. -/
theorem State.Inv.of_halted {s t : State} (hs : s.Inv) (hstatus : t.status = .halted) (hcause : t.cause ≠ .none)
    (hprog : t.prog = s.prog) (hpc : t.pc.toNat ≤ 4294967294) : t.Inv where
  running_record h := by simp [hstatus] at h
  halted_record _ := hcause
  pc_bound := hpc
  prog_wf := hprog ▸ hs.prog_wf

/-- A state with the halt record and the program kept and `pc` in range meets the invariant. -/
theorem State.Inv.of_controlKept {s t : State} (hs : s.Inv) (hcontrol : ControlKept s t)
    (hprog : t.prog = s.prog) (hpc : t.pc.toNat ≤ 4294967294) : t.Inv := by
  obtain ⟨hstatus, hcause, hinfo⟩ := hcontrol
  exact {
    running_record := fun h => hcause ▸ hinfo ▸ hs.running_record (hstatus ▸ h)
    halted_record := fun h => hcause ▸ hs.halted_record (hstatus ▸ h)
    pc_bound := hpc
    prog_wf := hprog ▸ hs.prog_wf }

theorem State.Inv.raise {s : State} (hs : s.Inv) {c : Cause} (hc : c ≠ .none) (info : Word) :
    (Machine.raise c info s).Inv :=
  hs.of_halted rfl hc rfl hs.pc_bound

/-- An instruction with its bytes inside the program leaves `pc` in range. Only JMPF comes up to the bound: from the
last place it can stand, by the greatest distance (R108). -/
theorem ExecCase.pc_le {i : Instr} {s t : State} (hc : ExecCase i s t) (hs : s.Inv)
    (hfit : s.pc.toNat + i.length ≤ Config.progMax) : t.pc.toNat ≤ 4294967294 := by
  have hpos := i.length_pos
  have hpc : s.pc.toNat ≤ Config.progMax := by omega
  have hadd : ∀ n : Offset, n.toNat ≤ 4 → (s.pc + n).toNat ≤ 4294967294 := fun n hn => by
    rw [Offset.toNat_add_of_le_progMax hpc hn]
    simp only [Config.progMax] at hpc
    omega
  cases hc with
  | badField | divFault | jumpFault => exact hs.pc_bound
  | halts | writesReg | divides | compares | fallsThrough | prints => exact hadd _ (by decide)
  | jumpsTo v _ _ hv =>
    have := Word.toNat_le_of_nonneg hv
    simp only [State.pc_setPc, offsetOf_toNat]
    omega
  | jumpsForward v _ ho hv =>
    have hbase : (jumpBase s).toNat = s.pc.toNat + 2 := Offset.toNat_add_of_le_progMax hpc (by decide)
    have hlen : i.length = 2 := by simp [Instr.length, ho, Opcode.format, Format.length]
    have := Word.toNat_le_of_nonneg hv
    simp only [State.pc_setPc, Offset.toNat_add, offsetOf_toNat, hbase]
    simp only [Config.progMax] at hfit
    omega
  | jumpsBackward v _ _ _ hle =>
    have hbase : (jumpBase s).toNat = s.pc.toNat + 2 := Offset.toNat_add_of_le_progMax hpc (by decide)
    have hsub : (jumpBase s - offsetOf v).toNat = (jumpBase s).toNat - (offsetOf v).toNat :=
      Offset.toNat_sub (by rw [offsetOf_toNat, hbase]; exact hle)
    simp only [State.pc_setPc, hsub, hbase]
    simp only [Config.progMax] at hpc
    omega

/-- What an instruction does to the halt record: it records a cause, or keeps the record. -/
theorem ExecCase.halted_or_controlKept {i : Instr} {s t : State} (hc : ExecCase i s t) :
    (t.status = .halted ∧ t.cause ≠ .none) ∨ ControlKept s t := by
  cases hc with
  | badField | jumpFault | halts => exact .inl ⟨rfl, by simp⟩
  | divFault c _ _ hcause => exact .inl ⟨rfl, by rcases hcause with rfl | rfl <;> simp⟩
  | writesReg | divides | compares | jumpsTo | jumpsForward | jumpsBackward | fallsThrough | prints =>
    exact .inr ⟨rfl, rfl, rfl⟩

/-- No instruction writes the program buffer (R32). -/
theorem ExecCase.prog_eq {i : Instr} {s t : State} (hc : ExecCase i s t) : t.prog = s.prog := by
  cases hc <;> rfl

/-- Settles O56: a halted engine stays as it is, a halt of the step itself records its cause, and an instruction that
was fetched whole keeps `pc` in range. -/
theorem stepKeepsInvariant : Obligations.StepKeepsInvariant := by
  intro s t hs h
  have hlen := hs.length_le
  obtain ⟨_, rfl⟩ | ⟨_, _, rfl⟩ | ⟨_, b0, hdec, rfl⟩ | ⟨_, _, rfl⟩ | ⟨_, i, rest, hdec, hexec⟩ := step_next h
  · exact hs
  · exact hs.of_halted rfl (by simp) rfl hs.pc_bound
  · have hin := pc_lt_length_of_decode_unknown hdec
    have hpc : (s.pc + 1).toNat = s.pc.toNat + 1 := Offset.toNat_add_of_le_progMax (by omega) (by decide)
    refine hs.of_halted rfl (by simp) rfl ?_
    simp only [State.pc_haltUnknown, hpc]
    simp only [Config.progMax] at hlen
    omega
  · exact hs.raise (by simp) 0
  · have hc := exec_next hexec
    have hpc := hc.pc_le hs ((pc_add_length_le_of_decode hdec).trans hlen)
    obtain ⟨hstatus, hcause⟩ | hcontrol := hc.halted_or_controlKept
    · exact hs.of_halted hstatus hcause hc.prog_eq hpc
    · exact hs.of_controlKept hcontrol hc.prog_eq hpc

/-! ### The host's commands -/

/-- What RESET answers (R172). -/
theorem cmdReset_eq_next_iff {p : List Byte} {s t : State} :
    cmdReset p s = .next t ↔ p.length ≤ Config.progMax ∧ t = resetWith p s := by
  by_cases h : p.length ≤ Config.progMax <;> simp [cmdReset, h, eq_comm]

/-- What LOAD_PROGRAM answers (R173). -/
theorem cmdLoadProgram_eq_next_iff {p : List Byte} {s t : State} :
    cmdLoadProgram p s = .next t ↔ p.length ≤ Config.progMax ∧ t = loadWith p s := by
  by_cases h : p.length ≤ Config.progMax <;> simp [cmdLoadProgram, h, eq_comm]

/-- A running state at offset 0 with no halt recorded and a loaded program meets the invariant (R24, R25). -/
theorem State.Inv.of_loaded {t : State} {p : List Byte} (hp : p.length ≤ Config.progMax)
    (hstatus : t.status = .running) (hcause : t.cause = .none) (hinfo : t.info = 0) (hpc : t.pc = 0)
    (hprog : t.prog = Memory.ofBytes p) : t.Inv where
  running_record _ := ⟨hcause, hinfo⟩
  halted_record h := by simp [hstatus] at h
  pc_bound := by simp [hpc]
  prog_wf := hprog ▸ Memory.wf_ofBytes hp

/-- Settles O58, by the command: RESET and LOAD_PROGRAM start a loaded program anew, STEP is O56. -/
theorem hostCommandsKeepInvariant : Obligations.HostCommandsKeepInvariant := by
  intro c s t hs h
  cases c with
  | reset p =>
    obtain ⟨hp, rfl⟩ := cmdReset_eq_next_iff.mp h
    exact .of_loaded hp rfl rfl rfl rfl rfl
  | loadProgram p =>
    obtain ⟨hp, rfl⟩ := cmdLoadProgram_eq_next_iff.mp h
    exact .of_loaded hp rfl rfl rfl rfl rfl
  | step => exact stepKeepsInvariant s t hs h

/-- Settles O55: the reset state runs the empty program from offset 0. -/
theorem resetMeetsInvariant : Obligations.ResetMeetsInvariant :=
  .of_loaded (p := []) (Nat.zero_le _) rfl rfl rfl rfl rfl

/-- Settles O57, by induction on how the state was reached. -/
theorem reachableStatesMeetInvariant : Obligations.ReachableStatesMeetInvariant := by
  intro s hreach
  induction hreach with
  | reset => exact resetMeetsInvariant
  | command c s t _ h hs => exact hostCommandsKeepInvariant c s t hs h

/-! ### The loaded program -/

theorem Memory.length_ofBytes (p : List Byte) : (Memory.ofBytes p).length = p.length := rfl

/-- A loaded program holds at each offset the byte it was made from (R30), and none past its end (R36). -/
theorem Memory.read_ofBytes (p : List Byte) (a : Nat) : (Memory.ofBytes p).read a = p[a]? := by
  by_cases ha : a < p.length
  · rw [Memory.read_of_lt (m := Memory.ofBytes p) ha]
    simp [Memory.ofBytes, lookupCell_cellsFrom, ha]
  · rw [(Memory.read_eq_none_iff (Memory.ofBytes p) a).mpr (not_lt.mp ha), List.getElem?_eq_none (not_lt.mp ha)]

/-- Reading the whole buffer is reading each of its offsets. -/
theorem Memory.getElem?_toBytes (m : Memory) (a : Nat) : m.toBytes[a]? = m.read a := by
  by_cases ha : a < m.length
  · simp [Memory.toBytes, Memory.read_of_lt ha, ha]
  · simp [Memory.toBytes, (m.read_eq_none_iff a).mpr (not_lt.mp ha), not_lt.mp ha]

/-- Settles O49: the whole buffer agrees with the program because it does so at each offset. -/
theorem loadedProgramReadsBack : Obligations.LoadedProgramReadsBack := fun p a =>
  ⟨Memory.read_ofBytes p a, Memory.length_ofBytes p,
    List.ext_getElem? fun k => by rw [Memory.getElem?_toBytes, Memory.read_ofBytes]⟩

/-- Settles O51: a program within PROG_MAX is answered with `resetWith`, a longer one is refused. -/
theorem resetGivesResetValues : Obligations.ResetGivesResetValues := by
  intro p s
  refine ⟨fun hp => ?_, fun hp => if_neg (not_le.mpr hp)⟩
  exact ⟨resetWith p s, cmdReset_eq_next_iff.mpr ⟨hp, rfl⟩, fun i => State.reg_resetWith s i p,
    rfl, rfl, rfl, rfl, rfl, rfl, rfl, Memory.read_ofBytes p, rfl, rfl⟩

/-- Settles O52: a program within PROG_MAX is answered with `loadWith`, a longer one is refused. -/
theorem loadProgramKeepsRegisters : Obligations.LoadProgramKeepsRegisters := by
  intro p s
  refine ⟨fun hp => ?_, fun hp => if_neg (not_le.mpr hp)⟩
  exact ⟨loadWith p s, cmdLoadProgram_eq_next_iff.mpr ⟨hp, rfl⟩,
    rfl, rfl, rfl, rfl, rfl, Memory.read_ofBytes p, fun _ => rfl, rfl, rfl, rfl, rfl⟩

/-! ### Which fields a step can change -/

/-- A step runs an instruction, or it leaves the registers, `rem` and `eq` alone. -/
theorem step_runs_or_keeps {s t : State} (h : step s = .next t) :
    (t.x = s.x ∧ t.rem = s.rem ∧ t.eq = s.eq) ∨
      (s.status = .running ∧ ∃ i rest, decode (fetchWindow s) = .ok (i, rest) ∧ ExecCase i s t) := by
  obtain ⟨_, rfl⟩ | ⟨_, _, rfl⟩ | ⟨_, _, _, rfl⟩ | ⟨_, _, rfl⟩ | ⟨hrun, i, rest, hdec, hexec⟩ := step_next h
  · exact .inl ⟨rfl, rfl, rfl⟩
  · exact .inl ⟨rfl, rfl, rfl⟩
  · exact .inl ⟨rfl, rfl, rfl⟩
  · exact .inl ⟨rfl, rfl, rfl⟩
  · exact .inr ⟨hrun, i, rest, hdec, exec_next hexec⟩

theorem eq_of_reg_setReg_ne {s : State} {d r : RegIndex} {v : Word} (h : (s.setReg d v).reg r ≠ s.reg r) : r = d :=
  not_imp_comm.mp (s.reg_setReg_other d r v) h

/-- An instruction that changes a register writes it as its destination, and changes no other (R13). -/
theorem ExecCase.of_reg_ne {i : Instr} {s t : State} {r : RegIndex} (hc : ExecCase i s t) (hne : t.reg r ≠ s.reg r) :
    i.opcode ∈ [Opcode.store, .add, .sub, .mul, .div] ∧ destField i = some (regByte r) ∧ RegsKeptBut r s t := by
  cases hc with
  | writesReg d v _ ho hd =>
    obtain rfl := eq_of_reg_setReg_ne hne
    exact ⟨List.mem_append_left [Opcode.div] ho, hd, fun j hj => s.reg_setReg_other r j v hj⟩
  | divides d q _ _ ho hd =>
    obtain rfl := eq_of_reg_setReg_ne hne
    exact ⟨by simp [ho], hd, fun j hj => s.reg_setReg_other r j q hj⟩
  | _ => exact absurd rfl hne

/-- An instruction that changes `rem` is a DIV that completes (R17). -/
theorem ExecCase.of_rem_ne {i : Instr} {s t : State} (hc : ExecCase i s t) (hne : t.rem ≠ s.rem) :
    i.opcode = .div ∧ t.status = s.status := by
  cases hc with
  | divides _ _ _ _ ho => exact ⟨ho, rfl⟩
  | _ => exact absurd rfl hne

/-- An instruction that changes `eq` is a comparison that completes (R18). -/
theorem ExecCase.of_eq_ne {i : Instr} {s t : State} (hc : ExecCase i s t) (hne : t.eq ≠ s.eq) :
    i.opcode ∈ [Opcode.eq, .neq, .gt, .lt, .gte, .lte] ∧ t.status = s.status := by
  cases hc with
  | compares _ _ ho => exact ⟨ho, rfl⟩
  | _ => exact absurd rfl hne

/-- Settles O41: only an instruction changes a register, and it is the destination. -/
theorem onlyDestinationRegisterChanges : Obligations.OnlyDestinationRegisterChanges := by
  intro s t r h hne
  obtain ⟨hx, _, _⟩ | ⟨hrun, i, rest, hdec, hc⟩ := step_runs_or_keeps h
  · exact absurd (by simp only [State.reg, hx]) hne
  · obtain ⟨hop, hdest, hkept⟩ := hc.of_reg_ne hne
    exact ⟨i, rest, hrun, hdec, hop, hdest, hkept⟩

/-- Settles O42: only an instruction changes `rem`, and it is a DIV. -/
theorem remWrittenByDivOnly : Obligations.RemWrittenByDivOnly := by
  intro s t h hne
  obtain ⟨_, hrem, _⟩ | ⟨hrun, i, rest, hdec, hc⟩ := step_runs_or_keeps h
  · exact absurd hrem hne
  · obtain ⟨hop, hstatus⟩ := hc.of_rem_ne hne
    obtain ⟨r1, r2, dest, rfl⟩ := Instr.eq_div_of_opcode hop
    exact ⟨hrun, hstatus.trans hrun, r1, r2, dest, rest, hdec⟩

/-- Settles O43: only an instruction changes `eq`, and it is a comparison. -/
theorem eqWrittenByComparisonsOnly : Obligations.EqWrittenByComparisonsOnly := by
  intro s t h hne
  obtain ⟨_, _, heq⟩ | ⟨hrun, i, rest, hdec, hc⟩ := step_runs_or_keeps h
  · exact absurd heq hne
  · obtain ⟨hop, hstatus⟩ := hc.of_eq_ne hne
    obtain ⟨mk, hmk, r1, r2, pad, rfl⟩ := Instr.eq_comparison_of_opcode hop
    exact ⟨hrun, hstatus.trans hrun, mk, hmk, r1, r2, pad, rest, hdec⟩

/-! ### What a step reads: two states that agree on what it reads make the same writes -/

/-- The writes of one step, apart from the state they are made to. A field that is `none` is not written. -/
structure Writes where
  reg : Option (RegIndex × Word) := none
  rem : Option Word := none
  eq : Option Bool := none
  pc : Option Offset := none
  halt : Option (Cause × Word) := none
  sent : List Byte := []
  records : List DiagRecord := []

/-- A state with the writes made. -/
def Writes.apply (w : Writes) (s : State) : State where
  x := w.reg.elim s.x fun p => s.x.set p.1 p.2
  pc := w.pc.getD s.pc
  rem := w.rem.getD s.rem
  eq := w.eq.getD s.eq
  status := w.halt.elim s.status fun _ => .halted
  cause := w.halt.elim s.cause Prod.fst
  info := w.halt.elim s.info Prod.snd
  prog := s.prog
  output := s.output ++ w.sent
  diag := s.diag ++ w.records

/-- Two results from two states come of the same writes. -/
def SameWrites (s s' : State) (r r' : Result) : Prop :=
  ∃ w : Writes, r = .next (w.apply s) ∧ r' = .next (w.apply s')

/-- Two states agree on what every step reads: the registers and `pc`. -/
structure AgreeOnReads (s s' : State) : Prop where
  x : s'.x = s.x
  pc : s'.pc = s.pc

theorem AgreeOnReads.reg {s s' : State} (h : AgreeOnReads s s') (r : RegIndex) : s'.reg r = s.reg r := by
  simp only [State.reg, h.x]

section
variable {s s' : State}

theorem sameWrites_raise (c : Cause) (info : Word) :
    SameWrites s s' (.next (raise c info s)) (.next (raise c info s')) :=
  ⟨{ halt := some (c, info) }, by simp [Writes.apply, raise]⟩

theorem sameWrites_setPc (t : Offset) : SameWrites s s' (.next (s.setPc t)) (.next (s'.setPc t)) :=
  ⟨{ pc := some t }, by simp [Writes.apply, State.setPc]⟩

theorem sameWrites_withReg {b : Byte} {k k' : RegIndex → Result} (h : ∀ r, SameWrites s s' (k r) (k' r)) :
    SameWrites s s' (withReg b s k) (withReg b s' k') := by
  unfold withReg
  cases regidx b with
  | some r => exact h r
  | none => exact sameWrites_raise ..

theorem sameWrites_jumpTo (v : Word) : SameWrites s s' (jumpTo v s) (jumpTo v s') := by
  unfold jumpTo
  split
  · exact sameWrites_raise ..
  · exact sameWrites_setPc _

variable (ha : AgreeOnReads s s')
include ha

theorem sameWrites_binaryOp (f : Word → Word → Word) (r1 r2 dest : Byte) :
    SameWrites s s' (binaryOp f r1 r2 dest s) (binaryOp f r1 r2 dest s') :=
  sameWrites_withReg fun a => sameWrites_withReg fun b => sameWrites_withReg fun d =>
    ⟨{ reg := some (d, f (s.reg a) (s.reg b)), pc := some (s.pc + 4) }, by
      simp [Writes.apply, State.setReg, State.advance, ha.reg, ha.pc]⟩

theorem sameWrites_compareOp (p : Word → Word → Bool) (r1 r2 : Byte) :
    SameWrites s s' (compareOp p r1 r2 s) (compareOp p r1 r2 s') :=
  sameWrites_withReg fun a => sameWrites_withReg fun b =>
    ⟨{ eq := some (p (s.reg a) (s.reg b)), pc := some (s.pc + 4) }, by
      simp [Writes.apply, State.setEq, State.advance, ha.reg, ha.pc]⟩

theorem sameWrites_emit (bytes : List Byte) :
    SameWrites s s' (.next ((s.emit bytes).advance 2)) (.next ((s'.emit bytes).advance 2)) :=
  ⟨{ sent := bytes, pc := some (s.pc + 2) }, by simp [Writes.apply, State.emit, State.advance, ha.pc]⟩

theorem sameWrites_execHlt : SameWrites s s' (execHlt s) (execHlt s') :=
  ⟨{ pc := some (s.pc + 1), halt := some (.hltExecuted, 0) }, by
    simp [Writes.apply, execHlt, State.halt, State.advance, ha.pc]⟩

theorem sameWrites_execStore (reg : Byte) (imm16 : Imm16) :
    SameWrites s s' (execStore reg imm16 s) (execStore reg imm16 s') :=
  sameWrites_withReg fun d => ⟨{ reg := some (d, imm16Extend imm16), pc := some (s.pc + 4) }, by
    simp [Writes.apply, State.setReg, State.advance, ha.pc]⟩

theorem sameWrites_execDiv (r1 r2 dest : Byte) :
    SameWrites s s' (execDiv r1 r2 dest s) (execDiv r1 r2 dest s') := by
  refine sameWrites_withReg fun a => sameWrites_withReg fun b => sameWrites_withReg fun d => ?_
  simp only [ha.reg]
  split
  · exact sameWrites_raise ..
  · split
    · exact sameWrites_raise ..
    · exact ⟨{ reg := some (d, quotientOf (s.reg a) (s.reg b)),
               rem := some (remainderPattern (remainderOf (s.reg a) (s.reg b))),
               pc := some (s.pc + 4) }, by
        simp [Writes.apply, State.setReg, State.setRem, State.advance, ha.pc]⟩

theorem sameWrites_execJmp (reg : Byte) : SameWrites s s' (execJmp reg s) (execJmp reg s') :=
  sameWrites_withReg fun r => by
    rw [ha.reg]
    exact sameWrites_jumpTo _

theorem sameWrites_execJmpf (reg : Byte) : SameWrites s s' (execJmpf reg s) (execJmpf reg s') := by
  refine sameWrites_withReg fun r => ?_
  simp only [ha.reg, jumpBase, ha.pc]
  split
  · exact sameWrites_raise ..
  · exact sameWrites_setPc _

theorem sameWrites_execJmpb (reg : Byte) : SameWrites s s' (execJmpb reg s) (execJmpb reg s') := by
  refine sameWrites_withReg fun r => ?_
  simp only [ha.reg, jumpBase, ha.pc]
  split
  · exact sameWrites_raise ..
  · split
    · exact sameWrites_raise ..
    · exact sameWrites_setPc _

/-- JMPE reads `eq` as well (R104). -/
theorem sameWrites_execJmpe (heq : s'.eq = s.eq) (reg : Byte) : SameWrites s s' (execJmpe reg s) (execJmpe reg s') := by
  refine sameWrites_withReg fun r => ?_
  simp only [ha.reg, heq]
  split
  · exact sameWrites_jumpTo _
  · exact ⟨{ pc := some (s.pc + 2) }, by simp [Writes.apply, State.advance, ha.pc]⟩

/-- What an instruction writes is settled by its bytes, the registers and `pc`, and for JMPE by `eq`. -/
theorem sameWrites_exec {i : Instr} (heq : i.opcode = .jmpe → s'.eq = s.eq) :
    SameWrites s s' (exec i s) (exec i s') := by
  cases i with
  | hlt => exact sameWrites_execHlt ha
  | store reg imm16 => exact sameWrites_execStore ha reg imm16
  | add | sub | mul => exact sameWrites_binaryOp ha ..
  | div r1 r2 dest => exact sameWrites_execDiv ha r1 r2 dest
  | jmp reg => exact sameWrites_execJmp ha reg
  | jmpf reg => exact sameWrites_execJmpf ha reg
  | jmpb reg => exact sameWrites_execJmpb ha reg
  | eq | neq | gt | lt | gte | lte => exact sameWrites_compareOp ha ..
  | jmpe reg => exact sameWrites_execJmpe ha (heq rfl) reg
  | print reg =>
    refine sameWrites_withReg fun r => ?_
    rw [ha.reg]
    exact sameWrites_emit ha _
  | println reg =>
    refine sameWrites_withReg fun r => ?_
    rw [ha.reg]
    exact sameWrites_emit ha _

/-- What a step writes is settled by the registers, `pc`, `eq`, the status and the program. -/
theorem sameWrites_step (heq : s'.eq = s.eq) (hstatus : s'.status = s.status) (hprog : s'.prog = s.prog) :
    SameWrites s s' (step s) (step s') := by
  have hwindow : fetchWindow s' = fetchWindow s := by simp only [fetchWindow, hprog, ha.pc]
  simp only [step, cycle, hstatus, hwindow]
  cases s.status with
  | halted => exact ⟨{}, by simp [Writes.apply]⟩
  | running =>
    dsimp only
    split
    · exact sameWrites_exec ha fun _ => heq
    · exact ⟨{ halt := some (.endOfProgram, 0) }, by simp [Writes.apply, haltEndOfProgram, State.halt]⟩
    · next b0 _ =>
      exact ⟨{ pc := some (s.pc + 1), halt := some (.unknownOpcode, b0.setWidth Config.xlen),
               records := [{ cause := .unknownOpcode, value := b0 }] }, by
        simp [Writes.apply, haltUnknown, State.halt, State.sendDiag, State.advance, ha.pc]⟩
    · exact sameWrites_raise ..

end

theorem getD_eq_or_kept {α : Type} (o : Option α) (a a' : α) :
    o.getD a' = o.getD a ∨ (o.getD a' = a' ∧ o.getD a = a) := by
  cases o <;> simp

theorem elim_eq_or_kept {α β : Type} (o : Option α) (f : α → β) (a a' : β) :
    o.elim a' f = o.elim a f ∨ (o.elim a' f = a' ∧ o.elim a f = a) := by
  cases o <;> simp

/-- Settles O44: the two steps make the same writes, each of which sets a field to one value or keeps it. -/
theorem remCauseInfoAndSinksAreNotRead : Obligations.RemCauseInfoAndSinksAreNotRead := by
  intro s t t' rem info cause output diag h h'
  obtain ⟨w, hw, hw'⟩ := sameWrites_step (s := s)
    (s' := { s with rem := rem, cause := cause, info := info, output := output, diag := diag }) ⟨rfl, rfl⟩ rfl rfl rfl
  obtain rfl : w.apply s = t := by simpa [hw] using h
  obtain rfl := Host.Outcome.next.inj (hw'.symm.trans h')
  exact ⟨rfl, getD_eq_or_kept w.rem _ _, elim_eq_or_kept w.halt _ _ _,
    elim_eq_or_kept w.halt _ _ _, ⟨w.sent, rfl, rfl⟩, ⟨w.records, rfl, rfl⟩⟩

theorem compareOp_of_wellFormed {p : Word → Word → Bool} {r1 r2 : Byte} (hw : [r1, r2].all regFieldOk = true) :
    ∃ a b, ∀ s, compareOp p r1 r2 s = .next ((s.setEq (p (s.reg a) (s.reg b))).advance 4) := by
  obtain ⟨h1, h2⟩ : regFieldOk r1 = true ∧ regFieldOk r2 = true := by simpa using hw
  obtain ⟨a, rfl⟩ := (regFieldOk_iff r1).mp h1
  obtain ⟨b, rfl⟩ := (regFieldOk_iff r2).mp h2
  exact ⟨a, b, fun s => by simp [compareOp]⟩

/-- A comparison whose register fields name registers writes `eq` from the two registers, whatever the rest of the
state (R121). -/
theorem exec_comparison {i : Instr} (ho : i.opcode ∈ [Opcode.eq, .neq, .gt, .lt, .gte, .lte]) (hw : WellFormed i = true) :
    ∃ (p : Word → Word → Bool) (a b : RegIndex),
      ∀ s, exec i s = .next ((s.setEq (p (s.reg a) (s.reg b))).advance 4) := by
  cases i with
  | eq | neq | gt | lt | gte | lte => exact ⟨_, compareOp_of_wellFormed hw⟩
  | _ => simp [Instr.opcode] at ho

/-- Settles O45: with another `eq` an instruction other than JMPE makes the same writes. -/
theorem eqReadByJmpeOnly : Obligations.EqReadByJmpeOnly := by
  intro i s t b hop h
  obtain ⟨w, hw, hw'⟩ := sameWrites_exec (s := s) (s' := s.setEq b) ⟨rfl, rfl⟩ (i := i) fun hjmpe => absurd hjmpe hop
  obtain rfl := Host.Outcome.next.inj (hw.symm.trans h)
  refine ⟨_, hw', rfl, getD_eq_or_kept w.eq _ _, fun ho hwf => ?_⟩
  obtain ⟨p, x, y, hcmp⟩ := exec_comparison ho hwf
  rw [← Host.Outcome.next.inj ((hcmp s).symm.trans hw), ← Host.Outcome.next.inj ((hcmp _).symm.trans hw')]
  rfl

end Sys2Proof.Machine

/-! PROOFS. What the decoder rejects (spec/30_encoding.md R53, R54), and who writes the program buffer
(spec/20_memory.md R32). -/

namespace Sys2Proof

/-! ### Which bytes are opcodes -/

/-- The opcode map numbers the opcodes in the order of the spec's table (R52). -/
theorem toNat_opmap_getElem_allOpcodes : ∀ k : Fin 18, (opmap allOpcodes[k]).toNat = k.val := by decide

theorem toNat_opmap_lt (op : Opcode) : (opmap op).toNat < 0x12 := by cases op <;> decide

/-- The mapped bytes are exactly those below 0x12 (R52, R53). -/
theorem exists_eq_opmap_iff (b : Byte) : (∃ op, b = opmap op) ↔ b.toNat < 0x12 := by
  constructor
  · rintro ⟨op, rfl⟩
    exact toNat_opmap_lt op
  · intro hb
    exact ⟨_, BitVec.eq_of_toNat_eq (toNat_opmap_getElem_allOpcodes ⟨b.toNat, hb⟩).symm⟩

/-- Unknown is read from exactly the bytes from 0x12 on (R53). -/
theorem opcodeOf_eq_none_iff (b : Byte) : opcodeOf b = none ↔ 0x12 ≤ b.toNat := by
  rw [← not_lt, ← exists_eq_opmap_iff, Option.eq_none_iff_forall_ne_some, not_exists]
  exact forall_congr' fun op => not_congr (opcodeOf_eq_some_iff b op)

/-! ### What the decoder rejects -/

theorem decode_nil : decode [] = .error .noBytes := rfl

theorem decode_cons_of_unmapped {b0 : Byte} (h : opcodeOf b0 = none) (rest : List Byte) :
    decode (b0 :: rest) = .error (.unknownOpcode b0) := by
  simp [decode, h]

theorem decode_opmap_cons (op : Opcode) (rest : List Byte) : decode (opmap op :: rest) = decodeOperands op rest := by
  simp [decode]

/-- Everything the decoder rejects, and the name it gives it: no byte at all (R36), an unmapped first byte (R53), a
mapped one with fewer bytes than its format needs (R54). -/
theorem decode_eq_error_iff (bytes : List Byte) (e : DecodeError) :
    decode bytes = .error e ↔
      (bytes = [] ∧ e = .noBytes) ∨
      (∃ b0, bytes.head? = some b0 ∧ 0x12 ≤ b0.toNat ∧ e = .unknownOpcode b0) ∨
      ((∃ op rest, bytes = opmap op :: rest ∧ bytes.length < op.format.length) ∧ e = .truncated) := by
  cases bytes with
  | nil => simp [decode_nil, eq_comm (a := e)]
  | cons b0 rest =>
    cases hop : opcodeOf b0 with
    | none =>
      have hb0 : 0x12 ≤ b0.toNat := (opcodeOf_eq_none_iff b0).mp hop
      have hne : ∀ op, b0 ≠ opmap op := fun op heq => by simp [heq] at hop
      simp [decode_cons_of_unmapped hop, hb0, hne, eq_comm (a := e)]
    | some op =>
      obtain rfl := (opcodeOf_eq_some_iff b0 op).mp hop
      have hmapped : ¬ 0x12 ≤ (opmap op).toNat := not_le.mpr (toNat_opmap_lt op)
      have hinj : ∀ op', opmap op = opmap op' ↔ op = op' := fun _ => ⟨opmap_injective, congrArg opmap⟩
      simp [decode_opmap_cons, decodeOperands_eq_error_iff, hmapped, hinj]

/-- Settles O2: each of the three names belongs to one case of what the decoder rejects. -/
theorem decodeRejectsByName : Obligations.DecodeRejectsByName := by
  intro bytes
  refine ⟨?_, fun b0 => ?_, ?_⟩ <;> simp [decode_eq_error_iff]

end Sys2Proof

namespace Sys2Proof.Machine

/-! ### Who writes the program buffer -/

/-- No step writes the program buffer (R32). -/
theorem step_prog_eq {s t : State} (h : step s = .next t) : t.prog = s.prog := by
  obtain ⟨_, rfl⟩ | ⟨_, _, rfl⟩ | ⟨_, _, _, rfl⟩ | ⟨_, _, rfl⟩ | ⟨_, i, rest, _, hexec⟩ := step_next h
  · rfl
  · exact s.prog_haltEndOfProgram
  · exact s.prog_haltUnknown _
  · exact s.prog_raise ..
  · exact (exec_next hexec).prog_eq

theorem ProgramKept.of_prog_eq {s t : State} (h : t.prog = s.prog) : ProgramKept s t := by
  simp [ProgramKept, h]

/-- Settles O48, by the command: RESET and LOAD_PROGRAM leave the buffer of their program, STEP the one it found. -/
theorem programWrittenByHostOnly : Obligations.ProgramWrittenByHostOnly := by
  refine ⟨fun s t h => ⟨step_prog_eq h, .of_prog_eq (step_prog_eq h)⟩, fun c s t h hne => ?_⟩
  cases c with
  | reset p =>
    obtain ⟨_, rfl⟩ := cmdReset_eq_next_iff.mp h
    exact ⟨p, .inl rfl, s.prog_resetWith p⟩
  | loadProgram p =>
    obtain ⟨_, rfl⟩ := cmdLoadProgram_eq_next_iff.mp h
    exact ⟨p, .inr rfl, s.prog_loadWith p⟩
  | step => exact absurd (step_prog_eq h) hne

end Sys2Proof.Machine

/-! PROOFS. Encoding and decoding (spec/30_encoding.md): the two directions agree, the opcode map, lengths, the pad byte
and the decimal immediate. -/

namespace Sys2Proof

/-! ### Encode, then decode -/

/-- The operand fetch of an instruction's own opcode reads its operand bytes back and stops after them (R47, R48). -/
theorem decodeOperands_operandBytes (i : Instr) (rest : List Byte) :
    decodeOperands i.opcode (i.operandBytes ++ rest) = .ok (i, rest) := by
  cases i with
  | store reg imm16 =>
    exact congrArg (fun v => Except.ok (Instr.store reg v, rest)) (imm16OfBytes_high_low imm16)
  | _ => rfl

theorem decode_encode_append (i : Instr) (rest : List Byte) : decode (encode i ++ rest) = .ok (i, rest) := by
  rw [encode, List.cons_append, decode_opmap_cons, decodeOperands_operandBytes]

/-- Settles O1: what decodes begins with the instruction's bytes, and an instruction's bytes decode to it. -/
theorem decodeExactlyInvertsEncode : Obligations.DecodeExactlyInvertsEncode := by
  intro i bytes rest
  refine ⟨eq_encode_append_of_decode, ?_⟩
  rintro rfl
  exact decode_encode_append i rest

/-- Settles O3: the table is read off the map, which `opcodeOf` inverts on the bytes below 0x12. -/
theorem opcodeBytesFollowTheMap : Obligations.OpcodeBytesFollowTheMap :=
  ⟨rfl, opcodeOf_opmap, opcodeOf_eq_none_iff⟩

/-! ### Lengths -/

/-- The three lengths of R46 by opcode. -/
theorem Opcode.length_format (op : Opcode) :
    op.format.length =
      if op = .hlt then 1
      else if op ∈ [Opcode.jmp, .jmpf, .jmpb, .jmpe, .print, .println] then 2 else 4 := by
  cases op <;> rfl

theorem head?_encode (i : Instr) : (encode i).head? = some (opmap i.opcode) := rfl

/-- Settles O4: the length is that of the opcode's format, and the first byte determines the opcode. -/
theorem instructionLengths : Obligations.InstructionLengths := by
  refine ⟨fun i => (length_encode i).trans i.opcode.length_format, fun i j hfirst => ?_⟩
  rw [head?_encode, head?_encode] at hfirst
  have hop : i.opcode = j.opcode := opmap_injective (Option.some.inj hfirst)
  rw [length_encode, length_encode, Instr.length, Instr.length, hop]

/-- Settles O5: the decoder is run on each of the seven words. -/
theorem sampleWordsDecode : Obligations.SampleWordsDecode :=
  ⟨rfl, rfl, rfl, rfl, rfl, rfl, rfl⟩

/-! ### The decimal immediate -/

/-- The pattern that the assembler emits for a decimal immediate in range reads back as that number (R62). -/
theorem toInt_imm16OfDecimal {n : Int} (hmin : -32768 ≤ n) (hmax : n ≤ 32767) : (imm16OfDecimal n).toInt = n :=
  BitVec.toInt_ofInt_eq_self (by decide) hmin (by omega)

end Sys2Proof

namespace Sys2Proof.Machine

/-- Widening an immediate keeps the number it reads as (R81). -/
theorem toInt_imm16Extend (v : Imm16) : (imm16Extend v).toInt = v.toInt :=
  BitVec.toInt_signExtend_of_le (by decide)

theorem exec_store_regByte (d : RegIndex) (v : Imm16) (s : State) :
    exec (.store (regByte d) v) s = .next ((s.setReg d (imm16Extend v)).advance 4) :=
  withReg_regByte d s _

/-- Settles O21: neither the emitted pattern nor its widening changes a number in range. -/
theorem decimalImmediateLoadsItself : Obligations.DecimalImmediateLoadsItself := by
  intro n s d hmin hmax
  refine ⟨_, exec_store_regByte d (imm16OfDecimal n) s, ?_⟩
  rw [State.reg_advance, State.reg_setReg_same, toInt_imm16Extend, toInt_imm16OfDecimal hmin hmax]

/-! ### The pad byte -/

/-- A comparison is encoded in format RRP, has two register fields, and means `compareOp` on them: the pad byte stands
only in its encoding (R47, R51). -/
theorem comparison_form {mk : Byte → Byte → Byte → Instr} (h : mk ∈ [Instr.eq, .neq, .gt, .lt, .gte, .lte]) :
    ∃ (op : Opcode) (p : Word → Word → Bool), op.format = .rrp ∧ ∀ r1 r2 pad,
      encode (mk r1 r2 pad) = [opmap op, r1, r2, pad] ∧ (mk r1 r2 pad).regFields = [r1, r2] ∧
      ∀ s, exec (mk r1 r2 pad) s = compareOp p r1 r2 s := by
  simp only [List.mem_cons, List.not_mem_nil, or_false] at h
  rcases h with rfl | rfl | rfl | rfl | rfl | rfl
  · exact ⟨.eq, flagEq, rfl, fun _ _ _ => ⟨rfl, rfl, fun _ => rfl⟩⟩
  · exact ⟨.neq, flagNeq, rfl, fun _ _ _ => ⟨rfl, rfl, fun _ => rfl⟩⟩
  · exact ⟨.gt, flagGt, rfl, fun _ _ _ => ⟨rfl, rfl, fun _ => rfl⟩⟩
  · exact ⟨.lt, flagLt, rfl, fun _ _ _ => ⟨rfl, rfl, fun _ => rfl⟩⟩
  · exact ⟨.gte, flagGte, rfl, fun _ _ _ => ⟨rfl, rfl, fun _ => rfl⟩⟩
  · exact ⟨.lte, flagLte, rfl, fun _ _ _ => ⟨rfl, rfl, fun _ => rfl⟩⟩

/-- Settles O6: without its pad byte a comparison is one byte short of its format, and with any pad byte it is the
encoding of the comparison with that pad. -/
theorem padByteIgnored : Obligations.PadByteIgnored := by
  intro mk hmk r1 r2 pad pad'
  obtain ⟨op, p, hformat, hform⟩ := comparison_form hmk
  obtain ⟨hencode, hfields, hexec⟩ := hform r1 r2 pad
  obtain ⟨hencode', _, hexec'⟩ := hform r1 r2 pad'
  refine ⟨fun s => (hexec s).trans (hexec' s).symm, hfields, ?_, fun rest => ?_⟩
  · have hshort : [opmap op, r1, r2].length < op.format.length := by simp [hformat, Format.length]
    rw [hencode]
    exact (decode_eq_error_iff ..).mpr (.inr (.inr ⟨⟨op, _, rfl, hshort⟩, rfl⟩))
  · have hbytes : (encode (mk r1 r2 pad)).take 3 ++ pad' :: rest = encode (mk r1 r2 pad') ++ rest := by
      rw [hencode, hencode']
      rfl
    rw [hbytes, decode_encode_append]

end Sys2Proof.Machine

/-! PROOFS. The execution cycle (spec/40_execution_cycle.md): which answer a step gives and what it leaves, the check of
the register fields, and the diagnostic channel. -/

namespace Sys2Proof.Machine

/-! ### The bytes at `pc` and the fetch window -/

/-- Bytes that stand in the program from `pc` on begin the fetch window, up to the window's size. -/
theorem fetchWindow_eq_append_of_bytesAtPc {s : State} {bytes : List Byte} (hlen : bytes.length ≤ 4)
    (h : BytesAtPc s bytes) : ∃ rest, fetchWindow s = bytes ++ rest := by
  have htake : (fetchWindow s).take bytes.length = bytes := by
    refine List.ext_getElem? fun k => ?_
    by_cases hk : k < bytes.length
    · rw [List.getElem?_take_of_lt hk, getElem?_fetchWindow s k (by omega), h k hk]
    · simp [hk]
  exact ⟨_, htake ▸ (List.take_append_drop bytes.length _).symm⟩

theorem bytesAtPc_singleton_iff {s : State} {b0 : Byte} : BytesAtPc s [b0] ↔ (fetchWindow s).head? = some b0 := by
  rw [List.head?_eq_getElem?, getElem?_fetchWindow s 0 (by decide)]
  simp [BytesAtPc]

/-- No instruction is longer than the fetch window (R46). -/
theorem length_encode_le_four (i : Instr) : (encode i).length ≤ 4 := by
  rw [length_encode, Instr.length]
  cases i.opcode.format <;> decide

/-- An instruction whose bytes stand at `pc` is the one the window decodes to (R66, R68). -/
theorem decode_fetchWindow_of_bytesAtPc {s : State} {i : Instr} (h : BytesAtPc s (encode i)) :
    ∃ rest, decode (fetchWindow s) = .ok (i, rest) := by
  obtain ⟨rest, hrest⟩ := fetchWindow_eq_append_of_bytesAtPc (length_encode_le_four i) h
  exact ⟨rest, hrest ▸ decode_encode_append i rest⟩

/-- The window is rejected as Unknown exactly when the byte at `pc` is unmapped (R53, R71). -/
theorem decode_fetchWindow_unknown_iff {s : State} {b0 : Byte} :
    decode (fetchWindow s) = .error (.unknownOpcode b0) ↔ BytesAtPc s [b0] ∧ 0x12 ≤ b0.toNat := by
  obtain ⟨_, hunknown, _⟩ := decodeRejectsByName (fetchWindow s)
  rw [hunknown, bytesAtPc_singleton_iff]

/-! ### Which answer a running engine's step gives -/

theorem step_of_decode {s : State} {i : Instr} {rest : List Byte} (hrun : s.status = .running)
    (hdec : decode (fetchWindow s) = .ok (i, rest)) : step s = exec i s := by
  simp [step, cycle, hrun, hdec]

theorem step_of_length_le_pc {s : State} (hrun : s.status = .running) (hend : s.prog.length ≤ s.pc.toNat) :
    step s = .next (haltEndOfProgram s) := by
  have hdec : decode (fetchWindow s) = .error .noBytes := by rw [(fetchWindow_eq_nil_iff s).mpr hend, decode_nil]
  simp [step, cycle, hrun, hdec]

theorem step_of_unmapped {s : State} {b0 : Byte} (hrun : s.status = .running) (hbyte : BytesAtPc s [b0])
    (hb0 : 0x12 ≤ b0.toNat) : step s = .next (haltUnknown b0 s) := by
  have hdec := decode_fetchWindow_unknown_iff.mpr ⟨hbyte, hb0⟩
  simp [step, cycle, hrun, hdec]

theorem exec_hlt (s : State) : exec .hlt s = .next ((s.advance 1).halt .hltExecuted 0) := rfl

/-- Every step answers a next state: the state with the step's writes made. -/
theorem exists_step_eq_next (s : State) : ∃ t, step s = .next t := by
  obtain ⟨w, hw, _⟩ := sameWrites_step (s := s) (s' := s) ⟨rfl, rfl⟩ rfl rfl rfl
  exact ⟨w.apply s, hw⟩

theorem haltedWith_halt (s : State) (c : Cause) (info : Word) : HaltedWith (s.halt c info) c info :=
  ⟨rfl, rfl, rfl⟩

/-! ### The check of the register fields -/

theorem wellFormed_iff_firstBadField (i : Instr) : WellFormed i = true ↔ firstBadField i = none := by
  simp [WellFormed, firstBadField]

/-- An instruction raises RegisterIndex with its first bad field, or it has none, and then the cause is the old one or
that of a halt of its own (R144, R145). -/
theorem ExecCase.badField_or_own_cause {i : Instr} {s t : State} (hc : ExecCase i s t) :
    (∃ b, firstBadField i = some b ∧ t = raise .registerIndex (b.setWidth Config.xlen) s) ∨
      (firstBadField i = none ∧
        (t.cause = s.cause ∨ t.cause ∈ [Cause.hltExecuted, .divideByZero, .divideOverflow, .jumpRange])) := by
  cases hc with
  | badField b hb => exact .inl ⟨b, hb, rfl⟩
  | halts ho =>
    have hfields : i.regFields = [] := by cases i <;> simp_all [Instr.opcode, Instr.regFields]
    exact .inr ⟨by simp [firstBadField, hfields], .inr (by simp)⟩
  | divFault c hw _ hcause =>
    exact .inr ⟨(wellFormed_iff_firstBadField i).mp hw, .inr (by rcases hcause with rfl | rfl <;> simp)⟩
  | jumpFault v hw => exact .inr ⟨(wellFormed_iff_firstBadField i).mp hw, .inr (by simp)⟩
  | writesReg _ _ hw | divides _ _ _ hw | compares _ hw | jumpsTo _ hw | jumpsForward _ hw | jumpsBackward _ hw
  | fallsThrough hw | prints _ hw => exact .inr ⟨(wellFormed_iff_firstBadField i).mp hw, .inl rfl⟩

/-- Settles O16: the register check comes before everything else an instruction does, and nothing else it does records
RegisterIndex. -/
theorem registerIndexExactly : Obligations.RegisterIndexExactly := by
  intro i s t hinv hrun h
  rw [← Bool.not_eq_true, wellFormed_iff_firstBadField]
  obtain ⟨b, hb, rfl⟩ | ⟨hgood, hcause⟩ := (exec_next h).badField_or_own_cause
  · rw [hb]
    refine ⟨by simp, fun b' hb' => ?_⟩
    obtain rfl := Option.some.inj hb'
    exact faultEntry_raise ..
  · have hnone : s.cause = .none := (hinv.running_record hrun).1
    have hne : t.cause ≠ .registerIndex := by
      intro heq
      simp [heq, hnone] at hcause
    simp [hgood, hne]

/-! ### The step -/

/-- Settles O7: the cycle adds nothing around a decoded instruction. -/
theorem stepRunsDecodedInstruction : Obligations.StepRunsDecodedInstruction :=
  fun _ _ _ hrun hdec => step_of_decode hrun hdec

/-- Settles O8: the window holds the whole instruction, and decodes to it. -/
theorem stepRunsInstructionStoredAtPc : Obligations.StepRunsInstructionStoredAtPc := by
  intro s i hrun hbytes
  obtain ⟨rest, hdec⟩ := decode_fetchWindow_of_bytesAtPc hbytes
  exact step_of_decode hrun hdec

/-- Settles O9: the window is empty, and the halt record is all that the step writes. -/
theorem endOfProgramHaltsCleanly : Obligations.EndOfProgramHaltsCleanly := by
  intro s hrun hend
  refine ⟨haltEndOfProgram s, step_of_length_le_pc hrun hend, haltedWith_halt .., s.pc_haltEndOfProgram,
    s.reg_haltEndOfProgram, s.rem_haltEndOfProgram, s.eq_haltEndOfProgram,
    ⟨s.output_haltEndOfProgram, s.diag_haltEndOfProgram⟩, .of_prog_eq s.prog_haltEndOfProgram, ?_⟩
  simp [EndedWell, Cause.code]

/-- Settles O10: the first byte of the window alone rejects it. -/
theorem unknownOpcodeHalts : Obligations.UnknownOpcodeHalts := by
  intro s b0 hrun hbyte hb0
  refine ⟨haltUnknown b0 s, step_of_unmapped hrun hbyte hb0, haltedWith_halt .., s.pc_haltUnknown b0,
    s.diag_haltUnknown b0, s.output_haltUnknown b0, fun r => s.reg_haltUnknown r b0, s.rem_haltUnknown b0,
    s.eq_haltUnknown b0, .of_prog_eq (s.prog_haltUnknown b0), ?_⟩
  simp [GoneWrong, Cause.code]

/-- Settles O12: the answer is a next state, and it is one value. -/
theorem everyStepAnswersANextState : Obligations.EveryStepAnswersANextState := by
  intro s
  obtain ⟨t, ht⟩ := exists_step_eq_next s
  exact ⟨t, ht, fun u hu => Host.Outcome.next.inj (hu.symm.trans ht)⟩

/-- Settles O19: HLT moves `pc` past its one byte and writes the halt record. -/
theorem hltHalts : Obligations.HltHalts :=
  ⟨rfl, fun s => ⟨_, exec_hlt s, haltedWith_halt .., rfl, fun _ => rfl, rfl, rfl, ⟨rfl, rfl⟩, .of_prog_eq rfl⟩⟩

/-! ### The diagnostic channel -/

/-- No instruction sends a diagnostic record (R72). -/
theorem ExecCase.diag_eq {i : Instr} {s t : State} (hc : ExecCase i s t) : t.diag = s.diag := by
  cases hc <;> rfl

/-- Settles O47: of the answers a step can give, the Unknown halt alone sends a record. -/
theorem diagnosticOnlyForUnknownOpcode : Obligations.DiagnosticOnlyForUnknownOpcode := by
  intro s t h
  obtain ⟨_, rfl⟩ | ⟨_, _, rfl⟩ | ⟨hrun, b0, hdec, rfl⟩ | ⟨_, _, rfl⟩ | ⟨_, i, _, _, hexec⟩ := step_next h
  · exact .inl rfl
  · exact .inl s.diag_haltEndOfProgram
  · obtain ⟨hbyte, hb0⟩ := decode_fetchWindow_unknown_iff.mp hdec
    exact .inr ⟨b0, hrun, hbyte, hb0, s.diag_haltUnknown b0, haltedWith_halt ..⟩
  · exact .inl (s.diag_raise ..)
  · exact .inl (exec_next hexec).diag_eq

end Sys2Proof.Machine

/-! PROOFS. What every instruction rule says besides the instruction's own effect (spec/60_exceptions.md R143, R144),
and STORE (spec/41_load_immediate.md). -/

namespace Sys2Proof

theorem Opcode.length_format_le_four (op : Opcode) : op.format.length ≤ 4 := by
  cases op.format <;> decide

/-- A 16-bit field as a signed number: from 0x8000 on it counts 0x10000 less (R50). -/
theorem toInt_imm16OfBytes (hi lo : Byte) :
    (imm16OfBytes hi lo).toInt = if hi.toNat * 256 + lo.toNat < 0x8000 then (hi.toNat * 256 + lo.toNat : Int)
      else (hi.toNat * 256 + lo.toNat : Int) - 0x10000 := by
  rw [BitVec.toInt_eq_toNat_cond, toNat_imm16OfBytes]
  split <;> split <;> omega

theorem encode_store_imm16OfBytes (reg hi lo : Byte) :
    encode (.store reg (imm16OfBytes hi lo)) = [0x01, reg, hi, lo] := by
  simp [encode, Instr.opcode, opmap, Instr.operandBytes]

end Sys2Proof

namespace Sys2Proof.Machine

/-! ### The common part of every instruction -/

/-- An opcode byte at `pc` whose format reaches past the end of the program is rejected as truncated (R36, R143). -/
theorem decode_fetchWindow_truncated {s : State} {op : Opcode} (hbyte : BytesAtPc s [opmap op])
    (hend : s.prog.length < s.pc.toNat + op.format.length) : decode (fetchWindow s) = .error .truncated := by
  obtain ⟨rest, hrest⟩ := fetchWindow_eq_append_of_bytesAtPc (show [opmap op].length ≤ 4 by simp) hbyte
  have hnonempty : (fetchWindow s).length ≠ 0 := by simp [hrest]
  have hshort : (fetchWindow s).length < op.format.length := by
    have hformat := op.length_format_le_four
    rw [length_fetchWindow] at hnonempty ⊢
    omega
  exact (decode_eq_error_iff ..).mpr (.inr (.inr ⟨⟨op, rest, hrest, hshort⟩, rfl⟩))

theorem step_of_truncated {s : State} {op : Opcode} (hrun : s.status = .running) (hbyte : BytesAtPc s [opmap op])
    (hend : s.prog.length < s.pc.toNat + op.format.length) : step s = .next (raise .truncatedFetch 0 s) := by
  simp [step, cycle, hrun, decode_fetchWindow_truncated hbyte hend]

/-- Every instruction answers a next state: the state with the instruction's writes made. -/
theorem exists_exec_eq_next (i : Instr) (s : State) : ∃ t, exec i s = .next t := by
  obtain ⟨w, hw, _⟩ := sameWrites_exec (s := s) (s' := s) ⟨rfl, rfl⟩ (i := i) fun _ => rfl
  exact ⟨w.apply s, hw⟩

theorem exec_of_firstBadField {i : Instr} {b : Byte} (hb : firstBadField i = some b) (s : State) :
    exec i s = .next (raise .registerIndex (b.setWidth Config.xlen) s) := by
  obtain ⟨t, ht⟩ := exists_exec_eq_next i s
  obtain ⟨b', hb', rfl⟩ | ⟨hgood, _⟩ := (exec_next ht).badField_or_own_cause
  · obtain rfl := Option.some.inj (hb.symm.trans hb')
    exact ht
  · simp [hgood] at hb

/-- Every instruction has the common part with its own bytes (R143, R144). -/
theorem commonPart_encode (i : Instr) : CommonPart i (encode i) := by
  refine ⟨rfl, fun s hrun hbyte hend => ?_, fun s b hb => ?_⟩
  · rw [length_encode] at hend
    exact ⟨_, step_of_truncated (op := i.opcode) hrun hbyte hend, faultEntry_raise ..⟩
  · exact ⟨_, exec_of_firstBadField hb s, faultEntry_raise ..⟩

/-! ### STORE -/

/-- The frame of a four-byte instruction that writes one register: all the rest is kept, and `pc` is past its bytes. -/
theorem setReg_advance_frame (s : State) (d : RegIndex) (v : Word) :
    RegsKeptBut d s ((s.setReg d v).advance 4) ∧ ((s.setReg d v).advance 4).rem = s.rem ∧
      ((s.setReg d v).advance 4).eq = s.eq ∧ ((s.setReg d v).advance 4).pc = s.pc + 4 ∧
      ControlKept s ((s.setReg d v).advance 4) ∧ SinksKept s ((s.setReg d v).advance 4) ∧
      ProgramKept s ((s.setReg d v).advance 4) :=
  ⟨fun r hr => s.reg_setReg_other d r v hr, rfl, rfl, rfl, ⟨rfl, rfl, rfl⟩, ⟨rfl, rfl⟩, .of_prog_eq rfl⟩

/-- Settles O20: the register takes the immediate, whose value widening keeps; the faults are those of the common
part. -/
theorem storeLoadsSignExtendedImmediate : Obligations.StoreLoadsSignExtendedImmediate := by
  refine ⟨fun reg hi lo => ?_, fun s d hi lo => ⟨_, exec_store_regByte d _ s, ?_, setReg_advance_frame s d _⟩⟩
  · rw [← encode_store_imm16OfBytes]
    exact commonPart_encode _
  · rw [State.reg_advance, State.reg_setReg_same, toInt_imm16Extend, toInt_imm16OfBytes]

end Sys2Proof.Machine

/-! PROOFS. Arithmetic (spec/42_arithmetic.md): ADD, SUB and MUL wrap, and DIV with its two faults. -/

namespace Sys2Proof

theorem Word.toInt_eq_zero_iff (v : Word) : v.toInt = 0 ↔ v = 0 := by
  simp [← BitVec.toInt_inj]

end Sys2Proof

namespace Sys2Proof.Machine

/-! ### Narrowing to 32 bits -/

/-- Narrowing an exact result is `wrap32` (R6). -/
theorem isWrap32_wrapWord (n : Int) : IsWrap32 (wrapWord n).toInt n := by
  obtain ⟨hmin, hmax⟩ := Word.toInt_bounds (wrapWord n)
  refine ⟨hmin, hmax, ?_⟩
  rw [wrapWord, BitVec.toInt_ofInt]
  exact Int.dvd_bmod_sub_self

/-- A result in range is narrowed to itself. -/
theorem toInt_wrapWord_of_fits {n : Int} (hmin : intMin ≤ n) (hmax : n ≤ intMax) : (wrapWord n).toInt = n :=
  BitVec.toInt_ofInt_eq_self (by decide) hmin (Int.lt_add_one_of_le hmax)

/-- The pattern of an integer, read unsigned, is its residue modulo `2^32` (R89). -/
theorem toNat_wrapWord (n : Int) : ((wrapWord n).toNat : Int) = n % 4294967296 := by
  rw [wrapWord, BitVec.toNat_ofInt]
  exact Int.toNat_of_nonneg (Int.emod_nonneg n (by decide))

/-! ### ADD, SUB, MUL -/

/-- An operation that narrows an exact result writes that result wrapped, and no more than its destination (R90). -/
theorem binaryOp_wraps {f : Word → Word → Word} {op : Int → Int → Int}
    (hf : ∀ u v : Word, f u v = wrapWord (op u.toInt v.toInt)) (s : State) (a b d : RegIndex) :
    ∃ t, binaryOp f (regByte a) (regByte b) (regByte d) s = .next t ∧
      IsWrap32 (t.reg d).toInt (op (s.reg a).toInt (s.reg b).toInt) ∧
      RegsKeptBut d s t ∧ t.rem = s.rem ∧ t.eq = s.eq ∧ t.pc = s.pc + 4 ∧ ControlKept s t ∧ SinksKept s t ∧
      ProgramKept s t := by
  refine ⟨(s.setReg d (f (s.reg a) (s.reg b))).advance 4, by simp [binaryOp], ?_, setReg_advance_frame s d _⟩
  rw [State.reg_advance, State.reg_setReg_same, hf]
  exact isWrap32_wrapWord _

/-- Settles O22: ADD narrows the exact sum. -/
theorem addWrapsSum : Obligations.AddWrapsSum :=
  ⟨fun r1 r2 dest => commonPart_encode (.add r1 r2 dest), binaryOp_wraps (f := sumOf) fun _ _ => rfl⟩

/-- Settles O23: SUB narrows the exact difference. -/
theorem subWrapsDifference : Obligations.SubWrapsDifference :=
  ⟨fun r1 r2 dest => commonPart_encode (.sub r1 r2 dest), binaryOp_wraps (f := differenceOf) fun _ _ => rfl⟩

/-- Settles O24: MUL narrows the exact product. -/
theorem mulWrapsProduct : Obligations.MulWrapsProduct :=
  ⟨fun r1 r2 dest => commonPart_encode (.mul r1 r2 dest), binaryOp_wraps (f := productOf) fun _ _ => rfl⟩

/-! ### The quotient and the remainder of two words -/

theorem quotientOverflows_iff (n m : Word) : quotientOverflows n m = true ↔ n.toInt = intMin ∧ m.toInt = -1 := by
  simp [quotientOverflows]

/-- Every quotient fits but `INT_MIN / -1` (R94): a divisor of magnitude 2 or more halves the dividend at least. -/
theorem tdiv_fits {n m : Word} (hm : m.toInt ≠ 0) (hno : ¬ (n.toInt = intMin ∧ m.toInt = -1)) :
    intMin ≤ n.toInt.tdiv m.toInt ∧ n.toInt.tdiv m.toInt ≤ intMax := by
  obtain ⟨hmin, hmax⟩ := Word.toInt_bounds n
  simp only [intMin, intMax] at hmin hmax hno ⊢
  by_cases hone : m.toInt = 1
  · rw [hone, Int.tdiv_one]
    exact ⟨hmin, hmax⟩
  · by_cases hneg : m.toInt = -1
    · rw [hneg, Int.tdiv_neg, Int.tdiv_one]
      omega
    · have hhalf : (n.toInt.tdiv m.toInt).natAbs ≤ n.toInt.natAbs / 2 := by
        rw [Int.natAbs_tdiv]
        exact Nat.div_le_div_left (by omega) (by decide)
      omega

/-- The remainder is smaller in magnitude than the divisor (R89). -/
theorem natAbs_remainderOf_lt {n m : Word} (hm : m.toInt ≠ 0) : (remainderOf n m).natAbs < m.toInt.natAbs := by
  rw [remainderOf, Int.natAbs_tmod]
  exact Nat.mod_lt _ (Int.natAbs_pos.mpr hm)

/-- The remainder is zero or has the dividend's sign (R89). -/
theorem remainderOf_sign (n m : Word) :
    remainderOf n m = 0 ∨ (0 < remainderOf n m ∧ 0 < n.toInt) ∨ (remainderOf n m < 0 ∧ n.toInt < 0) := by
  have hsign : (remainderOf n m).sign = if m.toInt ∣ n.toInt then 0 else n.toInt.sign := Int.sign_tmod ..
  split at hsign
  · exact .inl (Int.sign_eq_zero_iff_zero.mp hsign)
  · obtain hneg | hzero | hpos := lt_trichotomy (remainderOf n m) 0
    · rw [Int.sign_eq_neg_one_of_neg hneg] at hsign
      exact .inr (.inr ⟨hneg, Int.sign_eq_neg_one_iff_neg.mp hsign.symm⟩)
    · exact .inl hzero
    · rw [Int.sign_eq_one_of_pos hpos] at hsign
      exact .inr (.inl ⟨hpos, Int.sign_eq_one_iff_pos.mp hsign.symm⟩)

theorem toInt_quotientOf {n m : Word} (hm : m.toInt ≠ 0) (hno : ¬ (n.toInt = intMin ∧ m.toInt = -1)) :
    (quotientOf n m).toInt = n.toInt.tdiv m.toInt :=
  (tdiv_fits hm hno).elim toInt_wrapWord_of_fits

/-- The remainder's pattern reads back signed as the remainder, which is smaller in magnitude than a word (R89). -/
theorem toInt_remainderPattern {n m : Word} (hm : m.toInt ≠ 0) :
    (remainderPattern (remainderOf n m)).toInt = remainderOf n m := by
  have hlt := natAbs_remainderOf_lt (n := n) hm
  obtain ⟨hmin, hmax⟩ := Word.toInt_bounds m
  simp only [intMin, intMax] at hmin hmax
  exact toInt_wrapWord_of_fits (by simp only [intMin]; omega) (by simp only [intMax]; omega)

/-! ### DIV -/

section
variable {s : State} {a b : RegIndex} (d : RegIndex)

/-- DIV on fields that name registers: its two faults in order, then its completion (R88, R93, R94). -/
theorem exec_div_regByte :
    exec (.div (regByte a) (regByte b) (regByte d)) s =
      if s.reg b = 0 then .next (raise .divideByZero 0 s)
      else if quotientOverflows (s.reg a) (s.reg b) then .next (raise .divideOverflow 0 s)
      else .next (((s.setReg d (quotientOf (s.reg a) (s.reg b))).setRem
        (remainderPattern (remainderOf (s.reg a) (s.reg b)))).advance 4) := by
  simp only [exec, execDiv, withReg_regByte]

theorem exec_div_of_zero (hb : s.reg b = 0) :
    exec (.div (regByte a) (regByte b) (regByte d)) s = .next (raise .divideByZero 0 s) := by
  rw [exec_div_regByte, if_pos hb]

theorem exec_div_of_overflow (hover : (s.reg a).toInt = intMin ∧ (s.reg b).toInt = -1) :
    exec (.div (regByte a) (regByte b) (regByte d)) s = .next (raise .divideOverflow 0 s) := by
  have hb : s.reg b ≠ 0 := fun hzero => by simp [hzero] at hover
  rw [exec_div_regByte, if_neg hb, if_pos ((quotientOverflows_iff ..).mpr hover)]

theorem exec_div_of_fits (hb : (s.reg b).toInt ≠ 0) (hno : ¬ ((s.reg a).toInt = intMin ∧ (s.reg b).toInt = -1)) :
    exec (.div (regByte a) (regByte b) (regByte d)) s =
      .next (((s.setReg d (quotientOf (s.reg a) (s.reg b))).setRem
        (remainderPattern (remainderOf (s.reg a) (s.reg b)))).advance 4) := by
  rw [exec_div_regByte, if_neg (mt (Word.toInt_eq_zero_iff _).mpr hb), if_neg (mt (quotientOverflows_iff ..).mp hno)]

end

/-- Settles O27: the zero divisor is looked at before the dividend. -/
theorem divByZeroFaults : Obligations.DivByZeroFaults :=
  fun _ _ _ d hb => ⟨_, exec_div_of_zero d hb, faultEntry_raise ..⟩

/-- Settles O28: the fault is the model's, and the bound on the other quotients is arithmetic. -/
theorem divOverflowFaults : Obligations.DivOverflowFaults :=
  ⟨fun _ _ _ d hmin hneg => ⟨_, exec_div_of_overflow d ⟨hmin, hneg⟩, faultEntry_raise ..⟩,
    fun _ _ => tdiv_fits⟩

/-- Settles O25: the quotient fits, so narrowing keeps it; the remainder's pattern is its residue. -/
theorem divWritesQuotientAndRemainder : Obligations.DivWritesQuotientAndRemainder := by
  refine ⟨fun r1 r2 dest => commonPart_encode (.div r1 r2 dest), fun s a b d hb hno => ?_⟩
  refine ⟨_, exec_div_of_fits d hb hno, ?_, toNat_wrapWord _, fun r hr => s.reg_setReg_other d r _ hr,
    rfl, rfl, ⟨rfl, rfl, rfl⟩, ⟨rfl, rfl⟩, .of_prog_eq rfl⟩
  rw [State.reg_advance, State.reg_setRem, State.reg_setReg_same, toInt_quotientOf hb hno]

/-- Settles O26: a DIV that answers Running took neither fault, and its two results read back as the exact quotient and
remainder. -/
theorem divRemainderLaw : Obligations.DivRemainderLaw := by
  intro s t a b d _ _ h ht
  have hnofault : ∀ c info, exec (.div (regByte a) (regByte b) (regByte d)) s ≠ .next (raise c info s) := by
    intro c info hraise
    obtain rfl := Host.Outcome.next.inj (hraise.symm.trans h)
    cases ht
  have hb : (s.reg b).toInt ≠ 0 := fun hzero =>
    hnofault _ _ (exec_div_of_zero d ((Word.toInt_eq_zero_iff _).mp hzero))
  have hno : ¬ ((s.reg a).toInt = intMin ∧ (s.reg b).toInt = -1) := fun hover =>
    hnofault _ _ (exec_div_of_overflow d hover)
  rw [exec_div_of_fits d hb hno] at h
  obtain rfl := Host.Outcome.next.inj h
  simp only [State.reg_advance, State.reg_setRem, State.reg_setReg_same, State.rem_advance, State.rem_setRem,
    toInt_quotientOf hb hno, toInt_remainderPattern hb]
  exact ⟨(Int.mul_tdiv_add_tmod ..).symm, natAbs_remainderOf_lt hb, remainderOf_sign ..⟩

end Sys2Proof.Machine

/-! PROOFS. Jumps (spec/43_jumps.md): where JMP, JMPF, JMPB and JMPE go, when they raise JumpRange, and what follows a
jump out of the program. -/

namespace Sys2Proof.Machine

section
variable {s : State} {r : RegIndex}

/-! ### The answer of each jump on a field that names a register -/

theorem jumpTo_of_neg {v : Word} (hneg : v.toInt < 0) : jumpTo v s = .next (raise .jumpRange v s) := by
  simp [jumpTo, isNegative, hneg]

theorem jumpTo_of_nonneg {v : Word} (hv : 0 ≤ v.toInt) : jumpTo v s = .next (s.setPc (offsetOf v)) := by
  simp [jumpTo, isNegative, hv]

theorem exec_jmp_regByte : exec (.jmp (regByte r)) s = jumpTo (s.reg r) s :=
  withReg_regByte r s _

theorem exec_jmpf_regByte :
    exec (.jmpf (regByte r)) s =
      if (s.reg r).toInt < 0 then .next (raise .jumpRange (s.reg r) s)
      else .next (s.setPc (jumpBase s + offsetOf (s.reg r))) := by
  simp only [exec, execJmpf, withReg_regByte, isNegative, decide_eq_true_eq]

/-- The distances JMPB refuses, both bounds on the signed reading: the model compares the upper one unsigned. -/
theorem exec_jmpb_regByte :
    exec (.jmpb (regByte r)) s =
      if (s.reg r).toInt < 0 ∨ (s.pc.toNat : Int) + 2 < (s.reg r).toInt then .next (raise .jumpRange (s.reg r) s)
      else .next (s.setPc (jumpBase s - offsetOf (s.reg r))) := by
  simp only [exec, execJmpb, withReg_regByte, isNegative, decide_eq_true_eq]
  by_cases hneg : (s.reg r).toInt < 0
  · simp [hneg]
  · have hv := Word.toNat_eq_toInt (not_lt.mp hneg)
    have hfar : s.pc.toNat + 2 < (s.reg r).toNat ↔ (s.pc.toNat : Int) + 2 < (s.reg r).toInt := by omega
    simp only [hneg, hfar, if_false, false_or]

theorem exec_jmpe_of_eq (heq : s.eq = true) : exec (.jmpe (regByte r)) s = jumpTo (s.reg r) s := by
  simp only [exec, execJmpe, withReg_regByte, heq, if_true]

theorem exec_jmpe_of_not_eq (heq : s.eq = false) : exec (.jmpe (regByte r)) s = .next (s.setPc (s.pc + 2)) := by
  simp [exec, execJmpe, heq, State.advance, State.setPc]

theorem exec_jmp_of_nonneg (hv : 0 ≤ (s.reg r).toInt) :
    exec (.jmp (regByte r)) s = .next (s.setPc (offsetOf (s.reg r))) :=
  exec_jmp_regByte.trans (jumpTo_of_nonneg hv)

theorem exec_jmpf_of_nonneg (hv : 0 ≤ (s.reg r).toInt) :
    exec (.jmpf (regByte r)) s = .next (s.setPc (jumpBase s + offsetOf (s.reg r))) := by
  rw [exec_jmpf_regByte, if_neg (not_lt.mpr hv)]

theorem exec_jmpb_of_fits (hv : 0 ≤ (s.reg r).toInt) (hle : (s.reg r).toInt ≤ (s.pc.toNat : Int) + 2) :
    exec (.jmpb (regByte r)) s = .next (s.setPc (jumpBase s - offsetOf (s.reg r))) := by
  rw [exec_jmpb_regByte, if_neg (by omega)]

theorem exec_jmpe_of_eq_of_nonneg (heq : s.eq = true) (hv : 0 ≤ (s.reg r).toInt) :
    exec (.jmpe (regByte r)) s = .next (s.setPc (offsetOf (s.reg r))) :=
  (exec_jmpe_of_eq heq).trans (jumpTo_of_nonneg hv)

/-! ### Where a jump goes, and what it leaves -/

theorem toNat_offsetOf_of_nonneg {v : Word} (hv : 0 ≤ v.toInt) : ((offsetOf v).toNat : Int) = v.toInt := by
  rw [offsetOf_toNat, Word.toNat_eq_toInt hv]

theorem toNat_jumpBase : (jumpBase s).toNat = (s.pc.toNat + 2) % 4294967296 :=
  Offset.toNat_add ..

/-- A forward target below `2^32` is exact (R108). -/
theorem toNat_jumpBase_add {v : Word} (hv : 0 ≤ v.toInt) (hfit : (s.pc.toNat : Int) + 2 + v.toInt ≤ 4294967295) :
    ((jumpBase s + offsetOf v).toNat : Int) = (s.pc.toNat : Int) + 2 + v.toInt := by
  have hoff := toNat_offsetOf_of_nonneg hv
  rw [Offset.toNat_add, toNat_jumpBase]
  omega

/-- A backward target from 0 to below `2^32` is exact, even where the offset after the jump is not (R108). -/
theorem toNat_jumpBase_sub {v : Word} (hv : 0 ≤ v.toInt) (hle : v.toInt ≤ (s.pc.toNat : Int) + 2)
    (hfit : (s.pc.toNat : Int) + 2 - v.toInt ≤ 4294967295) :
    ((jumpBase s - offsetOf v).toNat : Int) = (s.pc.toNat : Int) + 2 - v.toInt := by
  have hoff := toNat_offsetOf_of_nonneg hv
  have hlt := (offsetOf v).toNat_lt
  have hsub : (jumpBase s - offsetOf v).toNat =
      (4294967296 - (offsetOf v).toNat + (jumpBase s).toNat) % 4294967296 := BitVec.toNat_sub ..
  rw [hsub, toNat_jumpBase]
  omega

/-- A distance that JMPF accepts carries nothing out of `pc` from inside a program of at most PROG_MAX bytes (R108). -/
theorem jumpForward_fits {v : Word} (hpc : s.pc.toNat + 2 ≤ Config.progMax) :
    (s.pc.toNat : Int) + 2 + v.toInt ≤ 4294967295 := by
  have hmax := (Word.toInt_bounds v).2
  simp only [intMax] at hmax
  simp only [Config.progMax] at hpc
  omega

/-- The frame of a jump: `pc` is all it writes. -/
theorem setPc_frame (s : State) (p : Offset) :
    RegsKept s (s.setPc p) ∧ (s.setPc p).rem = s.rem ∧ (s.setPc p).eq = s.eq ∧ ControlKept s (s.setPc p) ∧
      SinksKept s (s.setPc p) ∧ ProgramKept s (s.setPc p) :=
  ⟨fun i => s.reg_setPc i p, rfl, rfl, ⟨rfl, rfl, rfl⟩, ⟨rfl, rfl⟩, .of_prog_eq rfl⟩

end

/-! ### The rules of the four jumps -/

/-- Settles O33: a taken jump looks at the sign of its register before anything else. -/
theorem negativeJumpOperandFaults : Obligations.NegativeJumpOperandFaults := by
  intro s r hneg i hi heq
  suffices hraise : exec i s = .next (raise .jumpRange (s.reg r) s) from ⟨_, hraise, faultEntry_raise ..⟩
  simp only [List.mem_cons, List.not_mem_nil, or_false] at hi
  rcases hi with rfl | rfl | rfl | rfl
  · exact exec_jmp_regByte.trans (jumpTo_of_neg hneg)
  · rw [exec_jmpf_regByte, if_pos hneg]
  · rw [exec_jmpb_regByte, if_pos (.inl hneg)]
  · exact (exec_jmpe_of_eq (heq rfl)).trans (jumpTo_of_neg hneg)

/-- Settles O29: a register value that is not negative is the offset itself. -/
theorem jmpGoesToRegister : Obligations.JmpGoesToRegister :=
  ⟨fun reg => commonPart_encode (.jmp reg),
    fun s _ hv => ⟨_, exec_jmp_of_nonneg hv, toNat_offsetOf_of_nonneg hv, setPc_frame s _⟩,
    fun s r hneg => negativeJumpOperandFaults s r hneg _ (by simp) (by simp [Instr.opcode])⟩

/-- Settles O30: the 32-bit sum is exact where it does not carry. -/
theorem jmpfGoesForward : Obligations.JmpfGoesForward :=
  ⟨fun reg => commonPart_encode (.jmpf reg),
    fun s _ hv => ⟨_, exec_jmpf_of_nonneg hv, rfl, fun hpc => toNat_jumpBase_add hv (jumpForward_fits hpc),
      setPc_frame s _⟩,
    fun s r hneg => negativeJumpOperandFaults s r hneg _ (by simp) (by simp [Instr.opcode])⟩

/-- Settles O31: the 32-bit difference is exact where the offset after the jump fits, and the two refused ranges take
one fault. -/
theorem jmpbGoesBackward : Obligations.JmpbGoesBackward := by
  refine ⟨fun reg => commonPart_encode (.jmpb reg), fun s r hv hle => ?_, fun s r hrange => ?_⟩
  · exact ⟨_, exec_jmpb_of_fits hv hle, rfl, fun hpc => toNat_jumpBase_sub hv hle (by omega), setPc_frame s _⟩
  · exact ⟨_, exec_jmpb_regByte.trans (if_pos hrange), faultEntry_raise ..⟩

/-- Settles O32: with `eq` true JMPE is JMP, and with `eq` false the register's value does not occur in its answer. -/
theorem jmpeJumpsWhenEq : Obligations.JmpeJumpsWhenEq :=
  ⟨fun reg => commonPart_encode (.jmpe reg),
    fun s _ heq hv => ⟨_, exec_jmpe_of_eq_of_nonneg heq hv, toNat_offsetOf_of_nonneg hv, setPc_frame s _⟩,
    fun s r heq hneg => negativeJumpOperandFaults s r hneg _ (by simp) fun _ => heq,
    fun s _ heq => ⟨_, exec_jmpe_of_not_eq heq, rfl, setPc_frame s _⟩⟩

/-! ### Leaving the program -/

/-- The four jumps by a register, each with the offset it goes to when it is taken (R100 to R104). -/
def jumpTargets (s : State) (r : RegIndex) : List (Instr × Int) :=
  [(.jmp (regByte r), (s.reg r).toInt), (.jmpf (regByte r), (s.pc.toNat : Int) + 2 + (s.reg r).toInt),
    (.jmpb (regByte r), (s.pc.toNat : Int) + 2 - (s.reg r).toInt), (.jmpe (regByte r), (s.reg r).toInt)]

/-- A taken jump to a target that `pc` can hold goes there and writes nothing else. -/
theorem exec_jump_eq_setPc {s : State} {r : RegIndex} {jump : Instr × Int} (hjump : jump ∈ jumpTargets s r)
    (hv : 0 ≤ (s.reg r).toInt) (heq : jump.1.opcode = .jmpe → s.eq = true) (hnonneg : 0 ≤ jump.2)
    (hfit : jump.2 ≤ 4294967295) : ∃ p : Offset, exec jump.1 s = .next (s.setPc p) ∧ (p.toNat : Int) = jump.2 := by
  simp only [jumpTargets, List.mem_cons, List.not_mem_nil, or_false] at hjump
  rcases hjump with rfl | rfl | rfl | rfl
  · exact ⟨_, exec_jmp_of_nonneg hv, toNat_offsetOf_of_nonneg hv⟩
  · exact ⟨_, exec_jmpf_of_nonneg hv, toNat_jumpBase_add hv hfit⟩
  · have hle : (s.reg r).toInt ≤ (s.pc.toNat : Int) + 2 := Int.sub_nonneg.mp hnonneg
    exact ⟨_, exec_jmpb_of_fits hv hle, toNat_jumpBase_sub hv hle hfit⟩
  · exact ⟨_, exec_jmpe_of_eq_of_nonneg (heq rfl) hv, toNat_offsetOf_of_nonneg hv⟩

/-- Settles O34: a jump leaves the engine running at its target, and a running engine at or past the end of the program
takes the clean halt. -/
theorem leavingTheProgramEndsTheRun : Obligations.LeavingTheProgramEndsTheRun := by
  refine ⟨fun s r hrun hv jump hjump heq hend hfit => ?_, fun s t hstep hrun hend => ?_⟩
  · obtain ⟨p, hexec, hp⟩ := exec_jump_eq_setPc hjump hv heq ((Int.natCast_nonneg _).trans hend) hfit
    have hpast : (s.setPc p).prog.length ≤ (s.setPc p).pc.toNat := by
      rw [State.prog_setPc, State.pc_setPc]
      omega
    obtain ⟨u, hstep, hhalt, hpc, _, _, _, _, _, hended⟩ := endOfProgramHaltsCleanly (s.setPc p) hrun hpast
    exact ⟨s.setPc p, u, hexec, hrun, hp, hstep, hhalt, hpc, hended⟩
  · rw [← step_prog_eq hstep] at hend
    obtain ⟨u, hnext, hhalt, hpc, _⟩ := endOfProgramHaltsCleanly t hrun hend
    exact ⟨u, hnext, hhalt, hpc⟩

/-! ### Forward and back by the same register -/

/-- Settles O35: the JMPB stands at the target of the JMPF, so its distance is in range, and it takes back what the JMPF
added. -/
theorem jmpfThenJmpbDisplacementsCancel : Obligations.JmpfThenJmpbDisplacementsCancel := by
  intro s r hpc hv
  have htarget := toNat_jumpBase_add hv (jumpForward_fits hpc)
  refine ⟨_, _, exec_jmpf_of_nonneg hv, exec_jmpb_of_fits hv ?_, ?_, rfl⟩
  · rw [State.reg_setPc, State.pc_setPc, htarget]
    omega
  · calc jumpBase s + offsetOf (s.reg r) + 2 - offsetOf (s.reg r)
      _ = s.pc + (2 + 2) := by rw [add_right_comm, add_sub_cancel_right, jumpBase, add_assoc]
      _ = s.pc + 4 := rfl

end Sys2Proof.Machine

/-! PROOFS. Comparisons (spec/44_compare.md): the flag that EQ, NEQ, GT, LT, GTE and LTE leave, and their outcome
table. -/

namespace Sys2Proof.Machine

/-! ### The common shape -/

/-- A comparison on fields that name registers writes `eq` and no more than that and `pc` (R121). -/
theorem compareOp_regByte (p : Word → Word → Bool) (a b : RegIndex) (s : State) :
    compareOp p (regByte a) (regByte b) s = .next ((s.setEq (p (s.reg a) (s.reg b))).advance 4) := by
  rw [compareOp, withReg_regByte, withReg_regByte]

/-- The frame of a four-byte instruction that writes `eq`: all the rest is kept, and `pc` is past its bytes. -/
theorem setEq_advance_frame (s : State) (f : Bool) :
    RegsKept s ((s.setEq f).advance 4) ∧ ((s.setEq f).advance 4).rem = s.rem ∧
      ((s.setEq f).advance 4).pc = s.pc + 4 ∧ ControlKept s ((s.setEq f).advance 4) ∧
      SinksKept s ((s.setEq f).advance 4) ∧ ProgramKept s ((s.setEq f).advance 4) :=
  ⟨fun i => (s.setEq f).reg_advance i 4, rfl, rfl, ⟨rfl, rfl, rfl⟩, ⟨rfl, rfl⟩, .of_prog_eq rfl⟩

/-- An instruction that has the bytes of a comparison and runs the common shape meets the comparison's rule with the
predicate its flag computes. -/
theorem comparisonRule_of_compareOp {mk : Byte → Byte → Byte → Instr} {b0 : Byte} {flag : Word → Word → Bool}
    {p : Int → Int → Prop} (hencode : ∀ r1 r2 pad, encode (mk r1 r2 pad) = [b0, r1, r2, pad])
    (hexec : ∀ r1 r2 pad s, exec (mk r1 r2 pad) s = compareOp flag r1 r2 s)
    (hflag : ∀ u v : Word, flag u v = true ↔ p u.toInt v.toInt) : ComparisonRule mk b0 p := by
  refine ⟨fun r1 r2 pad => hencode r1 r2 pad ▸ commonPart_encode (mk r1 r2 pad), fun s a b pad => ?_⟩
  exact ⟨_, (hexec ..).trans (compareOp_regByte flag a b s), hflag _ _, setEq_advance_frame s _⟩

/-! ### The rules of the six comparisons -/

/-- Settles O36: EQ and NEQ run the common shape with the equality and the inequality of the signed readings. -/
theorem eqNeqSetFlag : Obligations.EqNeqSetFlag :=
  ⟨comparisonRule_of_compareOp (flag := flagEq) (fun _ _ _ => rfl) (fun _ _ _ _ => rfl)
      fun _ _ => decide_eq_true_iff,
    comparisonRule_of_compareOp (flag := flagNeq) (fun _ _ _ => rfl) (fun _ _ _ _ => rfl)
      fun _ _ => decide_eq_true_iff⟩

/-- Settles O37: the four ordered comparisons run the common shape with the orders of the signed readings. -/
theorem orderedComparisonsSetFlag : Obligations.OrderedComparisonsSetFlag :=
  ⟨comparisonRule_of_compareOp (flag := flagGt) (fun _ _ _ => rfl) (fun _ _ _ _ => rfl)
      fun _ _ => decide_eq_true_iff,
    comparisonRule_of_compareOp (flag := flagLt) (fun _ _ _ => rfl) (fun _ _ _ _ => rfl)
      fun _ _ => decide_eq_true_iff,
    comparisonRule_of_compareOp (flag := flagGte) (fun _ _ _ => rfl) (fun _ _ _ _ => rfl)
      fun _ _ => decide_eq_true_iff,
    comparisonRule_of_compareOp (flag := flagLte) (fun _ _ _ => rfl) (fun _ _ _ _ => rfl)
      fun _ _ => decide_eq_true_iff⟩

/-! ### The outcome table -/

/-- The flags of EQ, NEQ, GT, LT, GTE and LTE on one pair of operands, in the order of the table (R123). -/
def comparisonFlags (u v : Word) : List Bool :=
  [flagEq u v, flagNeq u v, flagGt u v, flagLt u v, flagGte u v, flagLte u v]

/-- The six comparisons on the same registers leave the state with these flags, each in its place. -/
theorem exec_comparisons_regByte (s : State) (a b : RegIndex) (pad : Byte) :
    ([Instr.eq, .neq, .gt, .lt, .gte, .lte].map fun mk => exec (mk (regByte a) (regByte b) pad) s) =
      (comparisonFlags (s.reg a) (s.reg b)).map fun f => .next ((s.setEq f).advance 4) := by
  simp only [comparisonFlags, List.map_cons, List.map_nil, exec, execEq, execNeq, execGt, execLt, execGte, execLte,
    compareOp_regByte]

section
variable {u v : Word}

theorem comparisonFlags_of_lt (h : u.toInt < v.toInt) :
    comparisonFlags u v = [false, true, false, true, false, true] := by
  simp [comparisonFlags, flagEq, flagNeq, flagGt, flagLt, flagGte, flagLte, h, h.le, h.ne]

theorem comparisonFlags_of_eq (h : u.toInt = v.toInt) :
    comparisonFlags u v = [true, false, false, false, true, true] := by
  simp [comparisonFlags, flagEq, flagNeq, flagGt, flagLt, flagGte, flagLte, h]

theorem comparisonFlags_of_gt (h : v.toInt < u.toInt) :
    comparisonFlags u v = [false, true, true, false, true, false] := by
  simp [comparisonFlags, flagEq, flagNeq, flagGt, flagLt, flagGte, flagLte, h, h.le, h.ne']

end

/-- Settles O38: the six flags depend only on which of the three orders the signed operands stand in. -/
theorem comparisonOutcomeTable : Obligations.ComparisonOutcomeTable := fun s a b pad =>
  ⟨comparisonFlags (s.reg a) (s.reg b), exec_comparisons_regByte s a b pad, comparisonFlags_of_lt,
    comparisonFlags_of_eq, comparisonFlags_of_gt⟩

end Sys2Proof.Machine

/-! PROOFS. Output (spec/45_output.md): PRINT and PRINTLN, the decimal text they send, and what the output stream can
become. -/

namespace Sys2Proof.Machine

/-! ### PRINT and PRINTLN -/

theorem exec_print_regByte (r : RegIndex) (s : State) :
    exec (.print (regByte r)) s = .next ((s.emit (dec (s.reg r))).advance 2) :=
  withReg_regByte r s _

theorem exec_println_regByte (r : RegIndex) (s : State) :
    exec (.println (regByte r)) s = .next ((s.emit (dec (s.reg r) ++ [newlineByte])).advance 2) :=
  withReg_regByte r s _

/-- The frame of a two-byte instruction that sends bytes to the output stream: inside the engine only `pc` changes. -/
theorem emit_advance_frame (s : State) (bytes : List Byte) :
    ((s.emit bytes).advance 2).pc = s.pc + 2 ∧ RegsKept s ((s.emit bytes).advance 2) ∧
      ((s.emit bytes).advance 2).rem = s.rem ∧ ((s.emit bytes).advance 2).eq = s.eq ∧
      ControlKept s ((s.emit bytes).advance 2) ∧ ((s.emit bytes).advance 2).diag = s.diag ∧
      ProgramKept s ((s.emit bytes).advance 2) :=
  ⟨rfl, fun _ => rfl, rfl, rfl, ⟨rfl, rfl, rfl⟩, rfl, .of_prog_eq rfl⟩

/-- Settles O39: both instructions send bytes and move on; they differ in the bytes alone. -/
theorem printSendsDecimalText : Obligations.PrintSendsDecimalText := by
  refine ⟨fun reg => ⟨commonPart_encode (.print reg), commonPart_encode (.println reg)⟩, fun s r => ?_⟩
  refine ⟨_, _, exec_print_regByte r s, rfl, exec_println_regByte r s, (List.append_assoc ..).symm, ?_⟩
  rw [List.forall_mem_cons, List.forall_mem_singleton]
  exact ⟨emit_advance_frame .., emit_advance_frame ..⟩

/-! ### The decimal text -/

/-- The digits, most significant first, of the shortest decimal numeral of a number (R131). -/
structure IsShortestNumeral (digits : List Nat) (n : Nat) : Prop where
  le_nine : ∀ d ∈ digits, d ≤ 9
  ne_nil : digits ≠ []
  no_leading_zero : digits.head? = some 0 → digits = [0]
  value : digits.foldl (fun n d => 10 * n + d) 0 = n

theorem isShortestNumeral_zero : IsShortestNumeral [0] 0 :=
  ⟨by simp, by simp, fun _ => rfl, rfl⟩

/-- The library's digits stand least significant first, and the most significant of a nonzero number is not 0. -/
theorem isShortestNumeral_reverse_digits {n : Nat} (hn : n ≠ 0) : IsShortestNumeral (Nat.digits 10 n).reverse n where
  le_nine d hd := Nat.le_of_lt_succ (Nat.digits_lt_base (by decide) (List.mem_reverse.mp hd))
  ne_nil := List.reverse_ne_nil_iff.mpr (Nat.digits_ne_nil_iff_ne_zero.mpr hn)
  no_leading_zero h := by
    rw [List.head?_reverse, List.getLast?_eq_getLast_of_ne_nil (Nat.digits_ne_nil_iff_ne_zero.mpr hn)] at h
    exact absurd (Option.some.inj h) (Nat.getLast_digit_ne_zero 10 hn)
  value := by
    have hvalue := Nat.ofDigits_digits 10 n
    rw [Nat.ofDigits_eq_foldr] at hvalue
    simpa [List.foldl_reverse, Nat.add_comm] using hvalue

theorem decimalDigits_of_lt_ten {n : Nat} (hn : n < 10) (fuel : Nat) : decimalDigits fuel n = [n] := by
  cases fuel <;> simp [decimalDigits, hn, Nat.mod_eq_of_lt]

theorem decimalDigits_succ_of_ten_le {n : Nat} (hn : 10 ≤ n) (fuel : Nat) :
    decimalDigits (fuel + 1) n = decimalDigits fuel (n / 10) ++ [n % 10] :=
  if_neg (not_lt.mpr hn)

/-- With fuel for every digit, the digits of a nonzero number are the library's, most significant first. -/
theorem decimalDigits_eq_reverse_digits {fuel n : Nat} (hn : n ≠ 0) (hfuel : n < 10 ^ (fuel + 1)) :
    decimalDigits fuel n = (Nat.digits 10 n).reverse := by
  induction fuel generalizing n with
  | zero =>
    have hlt : n < 10 := by simpa using hfuel
    rw [decimalDigits_of_lt_ten hlt, Nat.digits_of_lt 10 n hn hlt, List.reverse_singleton]
  | succ fuel ih =>
    by_cases hlt : n < 10
    · rw [decimalDigits_of_lt_ten hlt, Nat.digits_of_lt 10 n hn hlt, List.reverse_singleton]
    · have hdiv : n / 10 < 10 ^ (fuel + 1) := by omega
      rw [decimalDigits_succ_of_ten_le (by omega), ih (by omega) hdiv, Nat.digits_eq_cons_digits_div (by decide) hn,
        List.reverse_cons]

theorem isShortestNumeral_decimalDigits {fuel n : Nat} (hfuel : n < 10 ^ (fuel + 1)) :
    IsShortestNumeral (decimalDigits fuel n) n := by
  by_cases hn : n = 0
  · subst hn
    rw [decimalDigits_of_lt_ten (by decide)]
    exact isShortestNumeral_zero
  · rw [decimalDigits_eq_reverse_digits hn hfuel]
    exact isShortestNumeral_reverse_digits hn

/-- The fuel bounds the number of digits. -/
theorem length_decimalDigits_le (fuel n : Nat) : (decimalDigits fuel n).length ≤ fuel + 1 := by
  induction fuel generalizing n with
  | zero => simp [decimalDigits]
  | succ fuel ih =>
    by_cases hlt : n < 10
    · simp [decimalDigits_of_lt_ten hlt]
    · rw [decimalDigits_succ_of_ten_le (by omega), List.length_append, List.length_singleton]
      exact Nat.succ_le_succ (ih _)

/-- The magnitude of a value has at most ten digits (R6). -/
theorem natAbs_toInt_lt (v : Word) : v.toInt.natAbs < 10 ^ (9 + 1) := by
  obtain ⟨hmin, hmax⟩ := Word.toInt_bounds v
  simp only [intMin, intMax] at hmin hmax
  omega

theorem length_dec (v : Word) :
    (dec v).length = (if v.toInt < 0 then 1 else 0) + (decimalDigits 9 v.toInt.natAbs).length := by
  rw [dec, List.length_append, List.length_map, apply_ite List.length, List.length_singleton, List.length_nil]

/-- Settles O40: the digits are the shortest numeral of the magnitude, at most ten, and the sign adds one byte. -/
theorem decIsShortestDecimal : Obligations.DecIsShortestDecimal := by
  intro v
  obtain ⟨hnine, hnonempty, hlead, hvalue⟩ := isShortestNumeral_decimalDigits (natAbs_toInt_lt v)
  have hleast := List.length_pos_iff.mpr hnonempty
  have hmost := length_decimalDigits_le 9 v.toInt.natAbs
  have hlength := length_dec v
  refine ⟨decimalDigits 9 v.toInt.natAbs, rfl, hnine, hnonempty, hlead, hvalue, ?_, ?_⟩
  · omega
  · split at hlength <;> omega

/-! ### What a step does to the output stream -/

/-- An instruction appends to the output stream, and only PRINT and PRINTLN append anything (R130, R134). -/
theorem ExecCase.output_kept_or_prints {i : Instr} {s t : State} (hc : ExecCase i s t) :
    t.output = s.output ∨ (s.output <+: t.output ∧ i.opcode ∈ [Opcode.print, .println]) := by
  cases hc with
  | prints bytes _ ho => exact .inr ⟨List.prefix_append .., ho⟩
  | _ => exact .inl rfl

/-- A step keeps the output stream, or it runs a PRINT or PRINTLN that appends to it. -/
theorem step_output_kept_or_prints {s t : State} (h : step s = .next t) :
    t.output = s.output ∨ (s.output <+: t.output ∧ ∃ i rest, s.status = .running ∧
      decode (fetchWindow s) = .ok (i, rest) ∧ i.opcode ∈ [Opcode.print, .println]) := by
  obtain ⟨_, rfl⟩ | ⟨_, _, rfl⟩ | ⟨_, b0, _, rfl⟩ | ⟨_, _, rfl⟩ | ⟨hrun, i, rest, hdec, hexec⟩ := step_next h
  · exact .inl rfl
  · exact .inl s.output_haltEndOfProgram
  · exact .inl (s.output_haltUnknown b0)
  · exact .inl (s.output_raise ..)
  · exact (exec_next hexec).output_kept_or_prints.imp_right fun ⟨hgrows, hop⟩ => ⟨hgrows, i, rest, hrun, hdec, hop⟩

/-- Settles O46: a step that keeps the stream has nothing to show, and any other runs PRINT or PRINTLN. -/
theorem outputOnlyGrowsByPrint : Obligations.OutputOnlyGrowsByPrint := by
  intro s t h
  obtain hkept | ⟨hgrows, hprint⟩ := step_output_kept_or_prints h
  · exact ⟨hkept ▸ List.prefix_rfl, fun hne => absurd hkept hne⟩
  · exact ⟨hgrows, fun _ => hprint⟩

end Sys2Proof.Machine

/-! PROOFS. Halts and faults (spec/60_exceptions.md): which cause an instruction can record, what a fault leaves, when
TruncatedFetch is raised, and how a halt and its cause go together. -/

namespace Sys2Proof.Machine

/-! ### The causes as codes -/

/-- The causes of R140 are all but the none of a running engine. -/
theorem endedWell_or_goneWrong_iff (t : State) : EndedWell t ∨ GoneWrong t ↔ t.cause ≠ .none := by
  cases hcause : t.cause <;> simp [EndedWell, GoneWrong, hcause, Cause.code]

theorem not_endedWell_and_goneWrong (t : State) : ¬ (EndedWell t ∧ GoneWrong t) := by
  cases hcause : t.cause <;> simp [EndedWell, GoneWrong, hcause, Cause.code]

/-- The causes that are no fault are those of a running engine and of the halts of R67, R70 and R71. -/
theorem not_faulted_iff (t : State) :
    ¬ Faulted t ↔ t.cause ∈ [Cause.none, .endOfProgram, .hltExecuted, .unknownOpcode] := by
  cases hcause : t.cause <;> simp [Faulted, hcause, Cause.code]

/-- The halt record agrees with the status (R28 (b)). -/
theorem State.Inv.halted_iff {s : State} (hs : s.Inv) : s.status = .halted ↔ s.cause ≠ .none := by
  refine ⟨hs.halted_record, fun hcause => ?_⟩
  cases hstatus : s.status with
  | running => exact absurd (hs.running_record hstatus).1 hcause
  | halted => rfl

/-! ### Which cause an instruction can record -/

/-- The faults an instruction can raise from a state, by the instruction (R144, R145). TruncatedFetch is not among them:
the step raises it before there is an instruction (R143). -/
def MayRaise (i : Instr) (s : State) : Cause → Prop
  | .registerIndex => WellFormed i = false
  | .divideByZero | .divideOverflow => i.opcode = .div
  | .jumpRange => i.opcode ∈ [Opcode.jmp, .jmpf, .jmpb] ∨ (i.opcode = .jmpe ∧ s.eq = true)
  | .none | .endOfProgram | .hltExecuted | .unknownOpcode | .truncatedFetch => False

/-- An instruction keeps the cause, is the HLT that halts, or takes a fault that it can raise. -/
theorem ExecCase.cause_kept_or_hlt_or_raises {i : Instr} {s t : State} (hc : ExecCase i s t) :
    t.cause = s.cause ∨ t.cause = .hltExecuted ∨ ∃ c info, MayRaise i s c ∧ t = raise c info s := by
  cases hc with
  | badField b hb =>
    have hraise : MayRaise i s .registerIndex := by
      rw [MayRaise, ← Bool.not_eq_true, wellFormed_iff_firstBadField, hb]
      simp
    exact .inr (.inr ⟨_, _, hraise, rfl⟩)
  | divFault c _ ho hcause =>
    have hraise : MayRaise i s c := by rcases hcause with rfl | rfl <;> exact ho
    exact .inr (.inr ⟨c, _, hraise, rfl⟩)
  | jumpFault v _ ho => exact .inr (.inr ⟨.jumpRange, v, ho, rfl⟩)
  | halts => exact .inr (.inl rfl)
  | writesReg | divides | compares | jumpsTo | jumpsForward | jumpsBackward | fallsThrough | prints => exact .inl rfl

/-- From a running engine an instruction records no cause, HltExecuted, or a fault that it can raise. -/
theorem exec_cause_of_running {i : Instr} {s t : State} (hs : s.Inv) (hrun : s.status = .running)
    (h : exec i s = .next t) :
    t.cause = .none ∨ t.cause = .hltExecuted ∨ ∃ c info, MayRaise i s c ∧ t = raise c info s :=
  (exec_next h).cause_kept_or_hlt_or_raises.imp_left fun hkept => hkept.trans (hs.running_record hrun).1

/-- Settles O17: a fault that an instruction records is one that it can raise. -/
theorem ownFaultsByInstruction : Obligations.OwnFaultsByInstruction := by
  intro i s t hs hrun h
  obtain hnone | hhlt | ⟨c, info, hraise, rfl⟩ := exec_cause_of_running hs hrun h
  · simp [hnone]
  · simp [hhlt]
  · rw [State.cause_raise]
    refine ⟨?_, ?_⟩
    · rintro (rfl | rfl) <;> exact hraise
    · rintro rfl
      exact hraise

/-! ### What a fault leaves -/

/-- A running engine's step that records a fault is the taking of that fault: no other state carries its cause. -/
theorem step_eq_raise_of_faulted {s t : State} (hs : s.Inv) (hrun : s.status = .running) (h : step s = .next t)
    (hfault : Faulted t) : ∃ c info, t = raise c info s := by
  by_contra hno
  refine (not_faulted_iff t).mpr ?_ hfault
  obtain ⟨hhalted, _⟩ | ⟨_, _, rfl⟩ | ⟨_, b0, _, rfl⟩ | ⟨_, _, rfl⟩ | ⟨_, i, _, _, hexec⟩ := step_next h
  · simp [hrun] at hhalted
  · simp
  · simp
  · exact absurd ⟨_, _, rfl⟩ hno
  · obtain hnone | hhlt | ⟨c, info, _, ht⟩ := exec_cause_of_running hs hrun hexec
    · simp [hnone]
    · simp [hhlt]
    · exact absurd ⟨c, info, ht⟩ hno

/-- Settles O14: whatever the fault, it is taken on the state at the start of the step. -/
theorem faultsArePrecise : Obligations.FaultsArePrecise := by
  intro s t hs hrun h hfault
  obtain ⟨c, info, rfl⟩ := step_eq_raise_of_faulted hs hrun h hfault
  exact faultEntry_raise c info s

/-! ### TruncatedFetch -/

/-- With a mapped byte at `pc`, the window is truncated exactly when the opcode's format reaches past the end (R143). -/
theorem decode_fetchWindow_truncated_iff {s : State} {op : Opcode} (hbyte : BytesAtPc s [opmap op]) :
    decode (fetchWindow s) = .error .truncated ↔ s.prog.length < s.pc.toNat + op.format.length := by
  refine ⟨fun hdec => ?_, decode_fetchWindow_truncated hbyte⟩
  obtain ⟨_, _, htruncated⟩ := decodeRejectsByName (fetchWindow s)
  obtain ⟨op', rest, hwin, hshort⟩ := htruncated.mp hdec
  have hop : op' = op := by
    rw [bytesAtPc_singleton_iff, hwin] at hbyte
    exact opmap_injective (Option.some.inj hbyte)
  have hformat := op.length_format_le_four
  rw [length_fetchWindow, hop] at hshort
  omega

/-- A running engine's step records TruncatedFetch exactly when the decoder rejects the window as truncated: no
instruction raises it. -/
theorem step_cause_truncatedFetch_iff {s t : State} (hs : s.Inv) (hrun : s.status = .running) (h : step s = .next t) :
    t.cause = .truncatedFetch ↔ decode (fetchWindow s) = .error .truncated := by
  obtain ⟨hhalted, _⟩ | ⟨_, hdec, rfl⟩ | ⟨_, b0, hdec, rfl⟩ | ⟨_, hdec, rfl⟩ | ⟨_, i, _, hdec, hexec⟩ := step_next h
  · simp [hrun] at hhalted
  · simp [hdec]
  · simp [hdec]
  · simp [hdec]
  · have hne : t.cause ≠ .truncatedFetch := by
      obtain hnone | hhlt | ⟨c, info, hraise, rfl⟩ := exec_cause_of_running hs hrun hexec
      · simp [hnone]
      · simp [hhlt]
      · rintro rfl
        exact hraise
    simp [hne, hdec]

/-- Settles O15: the cause tells that the window was truncated, and then the step is the taking of that fault. -/
theorem truncatedFetchExactly : Obligations.TruncatedFetchExactly := by
  intro s t op hs hrun hbyte h
  have hiff : t.cause = .truncatedFetch ↔ s.prog.length < s.pc.toNat + op.format.length := by
    rw [step_cause_truncatedFetch_iff hs hrun h, decode_fetchWindow_truncated_iff hbyte]
  refine ⟨hiff, fun hcause => ?_⟩
  obtain rfl : t = raise .truncatedFetch 0 s :=
    Host.Outcome.next.inj (h.symm.trans (step_of_truncated hrun hbyte (hiff.mp hcause)))
  exact faultEntry_raise ..

/-! ### Halts and causes -/

/-- Settles O18: the step keeps the invariant, by which the status and the cause agree. -/
theorem everyHaltHasOneCause : Obligations.EveryHaltHasOneCause := by
  intro s t hs _ h
  rw [endedWell_or_goneWrong_iff]
  exact ⟨(stepKeepsInvariant s t hs h).halted_iff, not_endedWell_and_goneWrong t⟩

end Sys2Proof.Machine

/-! PROOFS. The host's STEP and RUN (spec/70_reset_and_hazards.md R174 to R176, R182). -/

namespace Sys2Proof.Machine

/-! ### STEP -/

theorem cmdStep_of_step {s t : State} (h : step s = .next t) :
    cmdStep s = .next (t, decide (t.status = .halted)) := by
  simp [cmdStep, h]

theorem cmdStep_eq_next_iff {s t : State} {halted : Bool} :
    cmdStep s = .next (t, halted) ↔ step s = .next t ∧ decide (t.status = .halted) = halted := by
  obtain ⟨u, hu⟩ := exists_step_eq_next s
  rw [cmdStep_of_step hu, hu]
  constructor
  · rintro ⟨⟩
    exact ⟨rfl, rfl⟩
  · rintro ⟨⟨⟩, rfl⟩
    rfl

/-- Settles O13: the Boolean is the model's test of the status after the step. -/
theorem stepReportsHalted : Obligations.StepReportsHalted := by
  intro s t halted h
  obtain ⟨hstep, rfl⟩ := cmdStep_eq_next_iff.mp h
  exact ⟨hstep, decide_eq_true_iff⟩

/-! ### RUN, one step at a time -/

theorem runWithin_succ_of_step {s u : State} (h : step s = .next u) (n : Nat) :
    runWithin (n + 1) s = if u.status = .halted then some u else runWithin n u := by
  rw [runWithin, cmdStep_of_step h]
  by_cases hu : u.status = .halted <;> simp [hu]

/-- A RUN that returns takes at least one step. -/
theorem runEnds_iff_succ {s t : State} : RunEnds s t ↔ ∃ n, runWithin (n + 1) s = some t := by
  refine ⟨fun ⟨n, hn⟩ => ?_, fun ⟨n, hn⟩ => ⟨n + 1, hn⟩⟩
  cases n with
  | zero => simp [runWithin] at hn
  | succ n => exact ⟨n, hn⟩

/-- The first STEP of a RUN either halts, and is then all of it, or leaves the rest of the RUN to do (R176). -/
theorem runEnds_iff_of_step {s t u : State} (h : step s = .next u) :
    RunEnds s t ↔ (u.status = .halted ∧ u = t) ∨ (u.status = .running ∧ RunEnds u t) := by
  rw [runEnds_iff_succ]
  simp only [runWithin_succ_of_step h]
  cases hu : u.status with
  | halted => simp
  | running => simp [RunEnds]

/-- Settles O54: every step answers a next state, and that state decides how the RUN goes on. -/
theorem runIsStepThenRun : Obligations.RunIsStepThenRun := by
  intro s t
  obtain ⟨u, hu⟩ := exists_step_eq_next s
  rw [runEnds_iff_of_step hu]
  refine ⟨fun h => ⟨u, hu, h⟩, ?_⟩
  rintro ⟨u', hu', h⟩
  obtain rfl := Host.Outcome.next.inj (hu.symm.trans hu')
  exact h

/-! ### How a RUN ends -/

/-- Induction over a RUN that returns, from its last step back to its first. -/
theorem RunEnds.induct {t : State} {P : State → Prop}
    (last : ∀ s, step s = .next t → t.status = .halted → P s)
    (earlier : ∀ s u, step s = .next u → u.status = .running → P u → P s)
    {s : State} (h : RunEnds s t) : P s := by
  obtain ⟨n, hn⟩ := h
  induction n generalizing s with
  | zero => simp [runWithin] at hn
  | succ n ih =>
    obtain ⟨u, hu⟩ := exists_step_eq_next s
    rw [runWithin_succ_of_step hu] at hn
    cases hstatus : u.status with
    | halted =>
      obtain rfl : u = t := by simpa [hstatus] using hn
      exact last s hu hstatus
    | running => exact earlier s u hu hstatus (ih (by simpa [hstatus] using hn))

theorem RunEnds.status_eq {s t : State} (h : RunEnds s t) : t.status = .halted :=
  h.induct (P := fun _ => t.status = .halted) (fun _ _ ht => ht) fun _ _ _ _ ih => ih

/-- RUN is deterministic: the step is, so two RUNs from one state agree step by step. -/
theorem RunEnds.unique {s t u : State} (ht : RunEnds s t) (hu : RunEnds s u) : t = u := by
  refine ht.induct (P := fun s => RunEnds s u → t = u) ?last ?earlier hu
  case last =>
    intro s hstep hhalted hu
    obtain ⟨_, rfl⟩ | ⟨hrun, _⟩ := (runEnds_iff_of_step hstep).mp hu
    · rfl
    · simp [hhalted] at hrun
  case earlier =>
    intro s v hstep hrun ih hu
    obtain ⟨hhalted, _⟩ | ⟨_, hrest⟩ := (runEnds_iff_of_step hstep).mp hu
    · simp [hrun] at hhalted
    · exact ih hrest

theorem hangs_iff (s : State) : Hangs s ↔ ¬ ∃ t, RunEnds s t := by
  simp only [Hangs, RunEnds, Option.eq_none_iff_forall_ne_some, not_exists]
  exact forall_comm

/-- Settles O53: the halt and the uniqueness are inductions over the RUN's steps. -/
theorem runEndsHaltedOnce : Obligations.RunEndsHaltedOnce :=
  ⟨fun _ _ h => h.status_eq, fun _ _ _ ht hu => ht.unique hu, hangs_iff⟩

/-! ### A halted engine -/

theorem run_succ_of_step {M : Host.Core} {s t : M.State} (h : M.step s = .next t) (n : Nat) :
    M.run (n + 1) s = M.run n t := by
  simp [Host.Core.run, h]

/-- A state that steps to itself stays where it is under any number of steps. -/
theorem core_run_of_step_self {s : State} (h : step s = .next s) (n : Nat) : Sys2Proof.core.run n s = .next s := by
  induction n with
  | zero => rfl
  | succ n ih => exact (run_succ_of_step (M := Sys2Proof.core) h n).trans ih

/-- Settles O11: the step of a halted engine answers the same state, which ends the RUN at its first step. -/
theorem haltedEngineStaysPut : Obligations.HaltedEngineStaysPut := by
  intro s hhalted
  have hstep : step s = .next s := step_halted hhalted
  have hrun : RunEnds s s := (runEnds_iff_of_step hstep).mpr (.inl ⟨hhalted, rfl⟩)
  exact ⟨cmdStep_eq_next_iff.mpr ⟨hstep, decide_eq_true hhalted⟩, hrun, core_run_of_step_self hstep,
    fun t ht => ht.unique hrun⟩

end Sys2Proof.Machine

/-! PROOFS. The program buffer: its canonical form is unique (spec/20_memory.md section 5, log entry 3). -/

namespace Sys2Proof.Machine

theorem lookupCell_cons_same (a : Nat) (v : Byte) (rest : List Host.Cell) : lookupCell ((a, v) :: rest) a = v :=
  if_pos rfl

theorem lookupCell_cons_other {a c : Nat} (h : a ≠ c) (v : Byte) (rest : List Host.Cell) :
    lookupCell ((c, v) :: rest) a = lookupCell rest a :=
  if_neg h

/-- A canonical cell list reads at its first address as something no unlisted address reads as. -/
theorem lookupCell_head_ne_unlisted {lo hi c : Nat} {v : Byte} {rest : List Host.Cell}
    (h : cellsOk lo hi ((c, v) :: rest) = true) : lookupCell ((c, v) :: rest) c ≠ Memory.unlisted := by
  obtain ⟨_, _, hv, _⟩ := (cellsOk_cons ..).mp h
  rwa [lookupCell_cons_same]

/-- No address before the first cell reads as listed. -/
theorem head_le_of_lookupCell_ne_unlisted {lo hi a c : Nat} {v : Byte} {rest : List Host.Cell}
    (h : cellsOk lo hi ((c, v) :: rest) = true) (ha : lookupCell ((c, v) :: rest) a ≠ Memory.unlisted) : c ≤ a := by
  obtain ⟨_, hhi, hv, hrest⟩ := (cellsOk_cons ..).mp h
  have hfrom : cellsOk c hi ((c, v) :: rest) = true := (cellsOk_cons ..).mpr ⟨le_rfl, hhi, hv, hrest⟩
  exact not_lt.mp fun hlt => ha (lookupCell_below hfrom hlt)

/-- Tails of canonical cell lists with the same first cell read alike when the lists do: the first address, which the
cell hides, is below both tails. -/
theorem lookupCell_tail_eq {hi c : Nat} {v : Byte} {rest rest' : List Host.Cell}
    (h : cellsOk (c + 1) hi rest = true) (h' : cellsOk (c + 1) hi rest' = true)
    (heq : ∀ a, lookupCell ((c, v) :: rest) a = lookupCell ((c, v) :: rest') a) (a : Nat) :
    lookupCell rest a = lookupCell rest' a := by
  by_cases hac : a = c
  · have hlt : a < c + 1 := by omega
    rw [lookupCell_below h hlt, lookupCell_below h' hlt]
  · simpa only [lookupCell_cons_other hac] using heq a

/-- Canonical cell lists that read alike are equal: where either has a first cell, it is the least address at which the
other reads as listed. -/
theorem cells_eq_of_lookupCell_eq {lo hi : Nat} {cs cs' : List Host.Cell} (h : cellsOk lo hi cs = true)
    (h' : cellsOk lo hi cs' = true) (heq : ∀ a, lookupCell cs a = lookupCell cs' a) : cs = cs' := by
  induction cs generalizing lo cs' with
  | nil =>
    cases cs' with
    | nil => rfl
    | cons cell' rest' => exact absurd (heq cell'.1).symm (lookupCell_head_ne_unlisted h')
  | cons cell rest ih =>
    obtain ⟨c, v⟩ := cell
    cases cs' with
    | nil => exact absurd (heq c) (lookupCell_head_ne_unlisted h)
    | cons cell' rest' =>
      obtain ⟨c', v'⟩ := cell'
      have hle : c' ≤ c := head_le_of_lookupCell_ne_unlisted h' (heq c ▸ lookupCell_head_ne_unlisted h)
      have hge : c ≤ c' := head_le_of_lookupCell_ne_unlisted h ((heq c').symm ▸ lookupCell_head_ne_unlisted h')
      obtain rfl : c = c' := le_antisymm hge hle
      obtain rfl : v = v' := by simpa only [lookupCell_cons_same] using heq c
      obtain ⟨_, _, _, hrest⟩ := (cellsOk_cons ..).mp h
      obtain ⟨_, _, _, hrest'⟩ := (cellsOk_cons ..).mp h'
      rw [ih hrest hrest' (lookupCell_tail_eq hrest hrest' heq)]

/-- A buffer ends where it first reads as no byte (R36), so what it reads as fixes its length. -/
theorem Memory.length_eq_of_read_eq {m m' : Memory} (h : ∀ a, m.read a = m'.read a) : m.length = m'.length :=
  eq_of_forall_ge_iff fun a => by rw [← m.read_eq_none_iff, h, m'.read_eq_none_iff]

/-- Canonical buffers that read alike have cells that read alike, past their end too, where neither lists a cell. -/
theorem Memory.lookupCell_eq_of_read_eq {m m' : Memory} (hm : cellsOk 0 m.length m.cells = true)
    (hm' : cellsOk 0 m.length m'.cells = true) (h : ∀ a, m.read a = m'.read a) (a : Nat) :
    lookupCell m.cells a = lookupCell m'.cells a := by
  obtain ha | ha := lt_or_ge a m.length
  · have hread := h a
    rw [Memory.read_of_lt ha, Memory.read_of_lt (Memory.length_eq_of_read_eq h ▸ ha)] at hread
    exact Option.some.inj hread
  · rw [lookupCell_above hm ha, lookupCell_above hm' ha]

/-- Settles O50: the reads fix the length and what the cells read as, which fixes canonical cells. -/
theorem canonicalBuffersAreEqualData : Obligations.CanonicalBuffersAreEqualData := by
  intro m m' hm hm' hread
  obtain ⟨hcells, _⟩ := m.wf_iff.mp hm
  obtain ⟨hcells', _⟩ := m'.wf_iff.mp hm'
  have hlength : m.length = m'.length := Memory.length_eq_of_read_eq hread
  rw [← hlength] at hcells'
  have hcellsEq : m.cells = m'.cells :=
    cells_eq_of_lookupCell_eq hcells hcells' (Memory.lookupCell_eq_of_read_eq hcells hcells' hread)
  cases m
  cases m'
  congr

end Sys2Proof.Machine
